-- ==== Sys2Proof/Config.lean ====
section
/-! DEFINITION. The sizes of the machine (R5): ranges of addresses and values. Every size is fixed by the spec, and it
leaves no value open (93_implementation_defined.md, "Summary for a model"), so there is no parameter and no free value here. -/

namespace Sys2Proof.Config

/-- `ADDR_MIN` to `ADDR_MAX` (R5): the addresses of the 100 cells. -/
abbrev IsAddress (a : Int) : Prop := 0 ≤ a ∧ a ≤ 99

/-- `CELL_MIN` to `CELL_MAX` (R5): the values a memory cell may hold. -/
abbrev IsCellValue (v : Int) : Prop := 0 ≤ v ∧ v ≤ 999

/-- `ACC_MIN` to `ACC_MAX` (R5): the values the accumulator may hold. -/
abbrev IsAccValue (v : Int) : Prop := 0 ≤ v ∧ v ≤ 999

/-- `PC_MIN` to `PC_MAX` (R5): the values the program counter may hold. -/
abbrev IsPcValue (v : Int) : Prop := 0 ≤ v ∧ v ≤ 99

/-- `OPERAND_MIN` to `OPERAND_MAX` (R5): what two digits can write. -/
abbrev IsOperand (n : Nat) : Prop := n ≤ 99

/-- `CELL_MIN` to `CELL_MAX` (R5) for a DAT literal (R73). -/
abbrev IsLiteral (n : Nat) : Prop := n ≤ 999

end Sys2Proof.Config
end

