-- ==== Sys2Proof/Syntax.lean ====
section
/-! DEFINITION. The instructions: one constructor per row of spec/opcode_table.json. -/

namespace Sys2Proof

/-- The instructions of R64, the unassigned opcode 9 (R150, R151) and the pseudo-instruction DAT (R73).
An operand is a plain number as a source line writes it; `WellFormed.lean` says which can be encoded. Where the hardware
ignores the operand digits (R65) they are kept, so that no part of a word is lost. -/
inductive Instr where
  /-- HLT (R100); the operand digits are ignored. -/
  | hlt (ignored : Nat)
  /-- ADD (R110); the address of the second addend. -/
  | add (operand : Nat)
  /-- SUB (R111); the address of the subtrahend. -/
  | sub (operand : Nat)
  /-- STA (R120); the address of the destination cell. -/
  | sta (operand : Nat)
  /-- LDA (R121); the address of the source cell. -/
  | lda (operand : Nat)
  /-- BRA (R130); the branch target. -/
  | bra (operand : Nat)
  /-- BRZ (R131); the branch target. -/
  | brz (operand : Nat)
  /-- INP (R140); the operand digits are ignored. -/
  | inp (ignored : Nat)
  /-- OUT (R141); the operand digits are ignored. -/
  | out (ignored : Nat)
  /-- A word 900 to 999 (R150); the operand digits are ignored. -/
  | unassigned9 (ignored : Nat)
  /-- DAT (R73): a raw number in a cell. The assembler's only; the decoder never answers it (R69). -/
  | dat (value : Nat)
  deriving DecidableEq, Repr

end Sys2Proof
end

