-- ==== Sys2Proof/WellFormed.lean ====
section
/-! DEFINITION. Which instructions can be encoded: operands of two digits, DAT literals of three (R70, R73, R76). -/

namespace Sys2Proof

/-- The limits of R76: an operand is at most 99, a DAT literal at most 999. -/
def Instr.wellFormed : Instr → Bool
  | .hlt n => decide (Config.IsOperand n)
  | .add n => decide (Config.IsOperand n)
  | .sub n => decide (Config.IsOperand n)
  | .sta n => decide (Config.IsOperand n)
  | .lda n => decide (Config.IsOperand n)
  | .bra n => decide (Config.IsOperand n)
  | .brz n => decide (Config.IsOperand n)
  | .inp n => decide (Config.IsOperand n)
  | .out n => decide (Config.IsOperand n)
  | .unassigned9 n => decide (Config.IsOperand n)
  | .dat v => decide (Config.IsLiteral v)

/-- Whether the instruction is the pseudo-instruction DAT, whose words decode to the other rows (R66, R69). -/
def Instr.isDat : Instr → Bool
  | .hlt _ => false
  | .add _ => false
  | .sub _ => false
  | .sta _ => false
  | .lda _ => false
  | .bra _ => false
  | .brz _ => false
  | .inp _ => false
  | .out _ => false
  | .unassigned9 _ => false
  | .dat _ => true

end Sys2Proof
end

