-- ==== Sys2Proof/Word.lean ====
section
/-! DEFINITION. The word type. Values are numbers in decimal ranges and no bit of them is visible (R5, R6, D9), so they are
bounded naturals, never bit vectors. `Fin` arithmetic wraps and is never used: results are computed in `Int` on the exact
value `(c.val : Int)` and checked. -/

namespace Sys2Proof

/-- A number in [0, 999]: the content of a memory cell (R11) and of the accumulator (R13). -/
abbrev Cell := Fin 1000

/-- A number in [0, 99]: a valid memory address (R11) and a value of the program counter (R16). -/
abbrev Addr := Fin 100

end Sys2Proof
end

