-- ==== Sys2Proof/Decode.lean ====
section
/-! DEFINITION. The instruction decoder (R61, R62, R64) and, after it, the encoder (R61, R72, R73). Both are decimal. -/

namespace Sys2Proof

/-- The opcode of a word: `word / 100`, always in [0, 9] (R61, R62). -/
def opcodeOf (word : Cell) : Fin 10 := ⟨word.val / 100, by omega⟩

/-- The operand of a word: `word % 100`, always in [0, 99] (R61, R62), used exactly as decoded (R63). -/
def operandOf (word : Cell) : Nat := word.val % 100

/-- The opcode map of R64, ten arms, opcode 9 with its own (R151). -/
def instrOfFields (opcode : Fin 10) (operand : Nat) : Instr :=
  match opcode with
  | 0 => .hlt operand
  | 1 => .add operand
  | 2 => .sub operand
  | 3 => .sta operand
  | 4 => .lda operand
  | 5 => .bra operand
  | 6 => .brz operand
  | 7 => .inp operand
  | 8 => .out operand
  | 9 => .unassigned9 operand

/-- `decode(word)` (R92): total on the value of a cell, since no word is illegal (R67). -/
def decodeCell (word : Cell) : Instr := instrOfFields (opcodeOf word) (operandOf word)

/-- Why a number is not decoded. -/
inductive DecodeError where
  /-- The number is above 999, so no cell can hold it and it is no instruction word (R60, D18). -/
  | notAWord (value : Nat)
  deriving DecidableEq, Repr

/-- Decoding of any number: an instruction for [0, 999], a rejection by name above. -/
def decode (value : Nat) : Except DecodeError Instr :=
  if h : value < 1000 then .ok (decodeCell ⟨value, h⟩) else .error (.notAWord value)

/-- The instruction the decoder reads from a word written as the number `w`. The spec fixes no bits (D9), so the row's bits
are read as one binary number; a cell is the only unit (R44), so there is no order of bytes to choose (log entry 1). -/
def decodeTableWord (_nbits w : Nat) : Option Instr :=
  match decode w with
  | .ok i => some i
  | .error _ => none

/-- The word of an instruction: `opcode * 100 + operand` (R61, R72), and the literal itself for DAT (R73). -/
def encode : Instr → Nat
  | .hlt n => 0 * 100 + n
  | .add n => 1 * 100 + n
  | .sub n => 2 * 100 + n
  | .sta n => 3 * 100 + n
  | .lda n => 4 * 100 + n
  | .bra n => 5 * 100 + n
  | .brz n => 6 * 100 + n
  | .inp n => 7 * 100 + n
  | .out n => 8 * 100 + n
  | .unassigned9 n => 9 * 100 + n
  | .dat v => v

end Sys2Proof
end

