-- ==== Sys2Proof/Machine/State.lean ====
section
/-! DEFINITION. The state of the machine: exactly the six elements of R10, as plain data, the reset state, and the
outcomes' reason types. -/

namespace Sys2Proof.Machine

/-- Memory (R11): the cells that do not hold 0, as (address, value) pairs. The cell is the smallest unit (R40), so it takes
the place a byte has on other machines. An unlisted address holds 0, the spec's own reset content (R12). -/
abbrev Memory := List (Nat × Cell)

/-- The canonical form from address `lo` on: addresses strictly rising, none above 99, no listed value 0. -/
def Memory.wfFrom : Nat → Memory → Bool
  | _, [] => true
  | lo, (a, v) :: rest => decide (lo ≤ a) && decide (a ≤ 99) && decide (v ≠ 0) && Memory.wfFrom (a + 1) rest

/-- The canonical form of memory: equal memories are equal lists, and no cell outside the 100 of R11 is listed. -/
def Memory.wf (m : Memory) : Bool := Memory.wfFrom 0 m

/-- The machine state, the six elements of R10 and nothing else (R25). The ranges of R26 are in the types. -/
structure State where
  /-- The memory array (R11). -/
  mem : Memory
  /-- The accumulator (R13). -/
  acc : Cell
  /-- The program counter (R16). -/
  pc : Addr
  /-- The input queue, front first; its elements are any integers (R19, D10). -/
  inq : List Int
  /-- The output queue, oldest first; its elements are in [0, 999] (R21). -/
  outq : List Cell
  /-- The halt state: false = Running, true = Halted (R23, 90_conflicts.md C1). -/
  halted : Bool
  deriving DecidableEq, Repr

/-- The faults of the machine: none. "The hardware raises no synchronous exception" (R160), so there is no constructor and
nothing raises one; this is exact, neither safe nor unsafe. -/
inductive Fault where
  deriving DecidableEq, Repr

/-- The refusals. -/
inductive Refusal where
  /-- An instruction without a meaning, by its mnemonic. No arm of `exec` answers it: every instruction has its meaning. -/
  | notModelled (mnemonic : String)
  /-- A host operation other than `load` on a machine that was never loaded (R184, D12, U10). Raised by the host interface
  (`hostStep`, `hostRead`), by no instruction. Safe: nothing is claimed of a machine before its first load. -/
  | beforeFirstLoad
  deriving DecidableEq, Repr

/-- The bare reset, `load([], [])` (R184): the values of R27 with an empty program and an empty input (log entry 3). -/
def State.reset : State :=
  { mem := [], acc := 0, pc := 0, inq := [], outq := [], halted := false }

/-- The state with another memory. -/
def State.setMem (s : State) (m : Memory) : State := { s with mem := m }

/-- The state with another accumulator. -/
def State.setAcc (s : State) (v : Cell) : State := { s with acc := v }

/-- The state with another program counter. -/
def State.setPc (s : State) (a : Addr) : State := { s with pc := a }

/-- The state with another input queue. -/
def State.setInq (s : State) (q : List Int) : State := { s with inq := q }

/-- The state with another output queue. -/
def State.setOutq (s : State) (q : List Cell) : State := { s with outq := q }

/-- The state with another halt state. -/
def State.setHalted (s : State) (b : Bool) : State := { s with halted := b }

end Sys2Proof.Machine
end

