-- ==== Sys2Proof/Machine/Ops.lean ====
section
/-! DEFINITION. The bounds-checked access primitives (10_state.md, 20_memory.md) and the fetch (R91).
Taking an exception and returning from one have no operation here: the hardware raises none, takes no interrupt, saves no
state, has no vector and no return instruction (R160, R163, R165, R166). -/

namespace Sys2Proof.Machine

/-- The value listed at an address, 0 where nothing is listed (R12). -/
def memLookup : Memory → Nat → Cell
  | [], _ => 0
  | (k, w) :: rest, a => if k = a then w else memLookup rest a

/-- Puts one cell's value, keeping the canonical form: a 0 is not listed. -/
def memStore : Memory → Nat → Cell → Memory
  | [], a, v => if v = 0 then [] else [(a, v)]
  | (k, w) :: rest, a, v =>
    if a < k then (if v = 0 then (k, w) :: rest else (a, v) :: (k, w) :: rest)
    else if a = k then (if v = 0 then rest else (a, v) :: rest)
    else (k, w) :: memStore rest a v

/-- `MemRead(addr, 1)` (R41): the cell, or 0 outside [0, 99]; never fails and changes nothing. -/
def memRead (m : Memory) (addr : Int) : Cell :=
  if Config.IsAddress addr then memLookup m addr.toNat else 0

/-- `MemWrite(addr, 1, v)` (R42): both the address and the value are checked, and failing either drops the whole write. -/
def memWrite (m : Memory) (addr v : Int) : Memory :=
  if h : Config.IsCellValue v then
    if Config.IsAddress addr then memStore m addr.toNat ⟨v.toNat, by have := h.1; have := h.2; omega⟩ else m
  else m

/-- `WriteAcc(v)` (R14): out of [0, 999] the accumulator keeps its value; no wrap, no clamp, no flag. -/
def State.writeAcc (s : State) (v : Int) : State :=
  if h : Config.IsAccValue v then s.setAcc ⟨v.toNat, by have := h.1; have := h.2; omega⟩ else s

/-- `WritePC(v)` (R17): out of [0, 99] the program counter keeps its value. -/
def State.writePC (s : State) (v : Int) : State :=
  if h : Config.IsPcValue v then s.setPc ⟨v.toNat, by have := h.1; have := h.2; omega⟩ else s

/-- The value `DequeueInput()` returns (R20): the front of the input queue, 0 from an empty queue. -/
def State.inputFront (s : State) : Int :=
  match s.inq with
  | [] => 0
  | v :: _ => v

/-- The state `DequeueInput()` leaves (R20): the front removed; an empty queue stays empty. -/
def State.dropInput (s : State) : State :=
  match s.inq with
  | [] => s
  | _ :: rest => s.setInq rest

/-- `EnqueueOutput(v)` (R22): appended unconditionally. -/
def State.enqueueOutput (s : State) (v : Cell) : State := s.setOutq (s.outq ++ [v])

/-- The halt of R100: Running to Halted. -/
def State.halt (s : State) : State := s.setHalted true

/-- The word the fetch reads (R91): the cell at the old program counter. -/
def State.fetchWord (s : State) : Cell := memRead s.mem ((s.pc.val : Int))

/-- The advance of the fetch (R91): `WritePC(pc + 1)`, which is dropped at 99. -/
def State.advance (s : State) : State := s.writePC ((s.pc.val : Int) + 1)

/-- `fetch()` (R91): the word at the program counter, and the state with the program counter advanced. -/
def fetch (s : State) : Cell × State := (s.fetchWord, s.advance)

end Sys2Proof.Machine
end

