-- ==== Sys2Proof/Machine/Operands.lean ====
section
/-! DEFINITION. The operand forms. There is one, the direct cell address (R63, R122): no immediate, register, indirect,
indexed or pc-relative form exists. -/

namespace Sys2Proof.Machine

/-- The effective address of ADD, SUB, STA and LDA (R122): the operand itself. -/
def effectiveAddress (operand : Nat) : Int := (operand : Int)

/-- The data a load or an arithmetic instruction reads: `MemRead(operand, 1)` (R110, R111, R121). -/
def dataCell (operand : Nat) (s : State) : Cell := memRead s.mem (effectiveAddress operand)

/-- The new program counter of BRA and BRZ (R132): absolute, the operand itself. -/
def branchTarget (operand : Nat) : Int := (operand : Int)

end Sys2Proof.Machine
end

