-- ==== Sys2Proof/Machine/Arith.lean ====
section
/-! DEFINITION. ADD and SUB (42_arith.md): exact integers, then the range-checked write of the accumulator (R112, R113). -/

namespace Sys2Proof.Machine

/-- ADD (R110): `WriteAcc(acc + mem[operand])`. -/
def execAdd (operand : Nat) (s : State) : Host.Outcome State Fault Refusal :=
  .next (s.writeAcc ((s.acc.val : Int) + ((dataCell operand s).val : Int)))

/-- SUB (R111): `WriteAcc(acc - mem[operand])`. -/
def execSub (operand : Nat) (s : State) : Host.Outcome State Fault Refusal :=
  .next (s.writeAcc ((s.acc.val : Int) - ((dataCell operand s).val : Int)))

end Sys2Proof.Machine
end

