-- ==== Sys2Proof/Machine/Flags.lean ====
section
/-! DEFINITION. The machine has no flags or condition codes (R24). The one condition is BRZ's test of the accumulator. -/

namespace Sys2Proof.Machine

/-- BRZ's condition (R131): the accumulator's present value is 0. It reads no flag. -/
def accIsZero (s : State) : Bool := decide (s.acc.val = 0)

end Sys2Proof.Machine
end

