-- ==== Sys2Proof/Machine/Branch.lean ====
section
/-! DEFINITION. BRA and BRZ (44_branch.md). -/

namespace Sys2Proof.Machine

/-- BRA (R130): `WritePC(operand)`. -/
def execBra (operand : Nat) (s : State) : Host.Outcome State Fault Refusal :=
  .next (s.writePC (branchTarget operand))

/-- BRZ (R131): `WritePC(operand)` when the accumulator is 0, nothing otherwise. -/
def execBrz (operand : Nat) (s : State) : Host.Outcome State Fault Refusal :=
  .next (if accIsZero s then s.writePC (branchTarget operand) else s)

end Sys2Proof.Machine
end

