-- ==== Sys2Proof/Machine/Halt.lean ====
section
/-! DEFINITION. HLT (41_halt.md), as the execute phase of a step: the fetch has already advanced the program counter. -/

namespace Sys2Proof.Machine

/-- HLT (R100): `halted <- true`; nothing else is written and the operand digits are ignored (R65). -/
def execHlt (_ignored : Nat) (s : State) : Host.Outcome State Fault Refusal :=
  .next s.halt

end Sys2Proof.Machine
end

