-- ==== Sys2Proof/Machine/InOut.lean ====
section
/-! DEFINITION. INP and OUT (45_io.md), the machine's only input and output (R142). -/

namespace Sys2Proof.Machine

/-- INP (R140): `DequeueInput()`, then `WriteAcc`. The front is removed whether or not the write is accepted; the operand
digits are ignored (R65). -/
def execInp (_ignored : Nat) (s : State) : Host.Outcome State Fault Refusal :=
  .next (s.dropInput.writeAcc s.inputFront)

/-- OUT (R141): `EnqueueOutput(acc)`; the accumulator is unchanged and the operand digits are ignored (R65). -/
def execOut (_ignored : Nat) (s : State) : Host.Outcome State Fault Refusal :=
  .next (s.enqueueOutput s.acc)

end Sys2Proof.Machine
end

