-- ==== Sys2Proof/Machine/LoadStore.lean ====
section
/-! DEFINITION. STA and LDA (43_load_store.md). -/

namespace Sys2Proof.Machine

/-- STA (R120): `MemWrite(operand, 1, acc)`; the accumulator is unchanged. -/
def execSta (operand : Nat) (s : State) : Host.Outcome State Fault Refusal :=
  .next (s.setMem (memWrite s.mem (effectiveAddress operand) ((s.acc.val : Int))))

/-- LDA (R121): `WriteAcc(MemRead(operand, 1))`; the cell is unchanged. -/
def execLda (operand : Nat) (s : State) : Host.Outcome State Fault Refusal :=
  .next (s.writeAcc (((dataCell operand s).val : Int)))

end Sys2Proof.Machine
end

