-- ==== Sys2Proof/Machine/Reserved.lean ====
section
/-! DEFINITION. The unassigned opcode 9 (46_reserved.md): a defined no-operation, not a default case (R151). -/

namespace Sys2Proof.Machine

/-- Opcode 9 (R150): nothing is read and nothing is written. -/
def execUnassigned9 (_ignored : Nat) (s : State) : Host.Outcome State Fault Refusal :=
  .next s

end Sys2Proof.Machine
end

