-- ==== Sys2Proof/Machine/Data.lean ====
section
/-! DEFINITION. The execute dispatch on opcode and operand (R93), and through it the pseudo-instruction DAT (R66, R73). -/

namespace Sys2Proof.Machine

/-- `execute(opcode, operand)` (R93): dispatches on the opcode and on nothing else, ten arms. -/
def execute (opcode : Fin 10) (operand : Nat) (s : State) : Host.Outcome State Fault Refusal :=
  match opcode with
  | 0 => execHlt operand s
  | 1 => execAdd operand s
  | 2 => execSub operand s
  | 3 => execSta operand s
  | 4 => execLda operand s
  | 5 => execBra operand s
  | 6 => execBrz operand s
  | 7 => execInp operand s
  | 8 => execOut operand s
  | 9 => execUnassigned9 operand s

/-- DAT (R73, R66): the hardware keeps no mark of which cells are data, so a data word that is executed does what the
instruction its number spells does. Above 999 it is no word (D18) and no cell can hold it; there the quoted sentence of R67
on an opcode value outside 0 to 8 gives a no-op. DEDUCED (log entry 7). -/
def execDat (value : Nat) (s : State) : Host.Outcome State Fault Refusal :=
  if h : value < 1000 then execute (opcodeOf ⟨value, h⟩) (operandOf ⟨value, h⟩) s else .next s

end Sys2Proof.Machine
end

