-- ==== Sys2Proof/Machine/Dispatch.lean ====
section
/-! DEFINITION. The execute phase of an instruction (R93): one arm per constructor of Instr. -/

namespace Sys2Proof.Machine

def exec (i : Instr) (s : State) : Host.Outcome State Fault Refusal :=
  match i with
  | .hlt x => Sys2Proof.Machine.execHlt x s
  | .add n => Sys2Proof.Machine.execAdd n s
  | .sub n => Sys2Proof.Machine.execSub n s
  | .sta n => Sys2Proof.Machine.execSta n s
  | .lda n => Sys2Proof.Machine.execLda n s
  | .bra n => Sys2Proof.Machine.execBra n s
  | .brz n => Sys2Proof.Machine.execBrz n s
  | .inp x => Sys2Proof.Machine.execInp x s
  | .out x => Sys2Proof.Machine.execOut x s
  | .unassigned9 x => Sys2Proof.Machine.execUnassigned9 x s
  | .dat v => Sys2Proof.Machine.execDat v s

end Sys2Proof.Machine
end

