-- ==== Sys2Proof/Machine/Step.lean ====
section
/-! DEFINITION. One step (R95): fetch, decode, execute, as one atomic transition (R8). -/

namespace Sys2Proof.Machine

/-- `step()` (R95). A step in the Halted state changes nothing (D3). -/
def step (s : State) : Host.Outcome State Fault Refusal :=
  if s.halted then .next s
  else exec (decodeCell (fetch s).1) (fetch s).2

/-- The state with the word `w` in the cell the next step fetches, and Running so that it is fetched. A number above 999 is
no word and no cell can hold it: the cell then keeps its value, as `MemWrite` says (log entry 4). -/
def State.withFetchWord (s : State) (_nbits w : Nat) : State :=
  (s.setMem (memWrite s.mem ((s.pc.val : Int)) (w : Int))).setHalted false

end Sys2Proof.Machine
end

