-- ==== Sys2Proof/Machine/Assembler.lean ====
section
/-! DEFINITION. The assembler and the disassembler (30_encoding.md section 4). They are tools: they read and write nothing of
the machine. A line is a list of characters; `assemble` takes it as a string. -/

namespace Sys2Proof.Machine

/-- The three kinds of `AssemblyError` (R75, R76, R77, D20). -/
inductive AssemblyErrorKind where
  /-- The mnemonic is none of the ten of R71. -/
  | unknownMnemonic
  /-- An operand above 99, or a DAT literal above 999. -/
  | operandOutOfRange
  /-- The line is not of the form of R77. -/
  | malformedLine
  deriving DecidableEq, Repr

/-- `AssemblyError(kind, line)`. -/
structure AssemblyError where
  kind : AssemblyErrorKind
  line : List Char
  deriving DecidableEq, Repr

/-- The mnemonic a source line uses (R71); opcode 9 has none, and its words are written with DAT (R80). -/
def mnemonicOf : Instr → List Char
  | .hlt _ => ['H', 'L', 'T']
  | .add _ => ['A', 'D', 'D']
  | .sub _ => ['S', 'U', 'B']
  | .sta _ => ['S', 'T', 'A']
  | .lda _ => ['L', 'D', 'A']
  | .bra _ => ['B', 'R', 'A']
  | .brz _ => ['B', 'R', 'Z']
  | .inp _ => ['I', 'N', 'P']
  | .out _ => ['O', 'U', 'T']
  | .unassigned9 _ => ['D', 'A', 'T']
  | .dat _ => ['D', 'A', 'T']

/-- The instruction a mnemonic and an operand name (R71, R72, R73); upper case, exactly as spelled (R77 a). -/
def instrNamed (name : List Char) (operand : Nat) : Option Instr :=
  if name = ['H', 'L', 'T'] then some (.hlt operand)
  else if name = ['A', 'D', 'D'] then some (.add operand)
  else if name = ['S', 'U', 'B'] then some (.sub operand)
  else if name = ['S', 'T', 'A'] then some (.sta operand)
  else if name = ['L', 'D', 'A'] then some (.lda operand)
  else if name = ['B', 'R', 'A'] then some (.bra operand)
  else if name = ['B', 'R', 'Z'] then some (.brz operand)
  else if name = ['I', 'N', 'P'] then some (.inp operand)
  else if name = ['O', 'U', 'T'] then some (.out operand)
  else if name = ['D', 'A', 'T'] then some (.dat operand)
  else none

/-- The number decimal digits write, in base ten; leading zeros change nothing (R77 c). -/
def readDecimal (digits : List Char) : Nat :=
  digits.foldl (fun n d => n * 10 + (d.toNat - '0'.toNat)) 0

/-- The shape of a line (R77 b, c, e): a mnemonic alone, or a mnemonic, one space U+0020 and one or more digits. A mnemonic
here is any run of one or more characters that are no white space (log entry 12). -/
def lineShape (line : List Char) : Option (List Char × Option Nat) :=
  let name := line.takeWhile (fun c => !c.isWhitespace)
  if name = [] then none
  else match line.dropWhile (fun c => !c.isWhitespace) with
    | [] => some (name, none)
    | blank :: digits =>
      if blank = ' ' ∧ digits ≠ [] ∧ digits.all Char.isDigit = true then some (name, some (readDecimal digits))
      else none

/-- `assemble` on a line's characters: shape, then mnemonic, then operand range (R77 d); an omitted operand is 0, also for
DAT (R74, D8). The result is a number (R78). -/
def assembleLine (line : List Char) : Except AssemblyError Nat :=
  match lineShape line with
  | none => .error ⟨.malformedLine, line⟩
  | some (name, operand) =>
    match instrNamed name (operand.getD 0) with
    | none => .error ⟨.unknownMnemonic, line⟩
    | some i => if i.wellFormed then .ok (encode i) else .error ⟨.operandOutOfRange, line⟩

/-- `assemble(line)` (R70 to R78). -/
def assemble (line : String) : Except AssemblyError Nat := assembleLine line.toList

/-- One word per line, in order (R78): what is handed to `load` as its program. The spec gives `assemble` line by line only and
does not say what becomes of a program with a failing line: here the whole program fails, with the error of its first failing
line. DESIGN CHOICE (log entry 22). -/
def assembleProgram : List String → Except AssemblyError (List Int)
  | [] => .ok []
  | line :: rest =>
    match assemble line with
    | .error e => .error e
    | .ok w =>
      match assembleProgram rest with
      | .error e => .error e
      | .ok ws => .ok ((w : Int) :: ws)

/-- The number printed after the mnemonic: the operand (R79), the whole word where the text is DAT (R80). -/
def printedOperand : Instr → Nat
  | .hlt n => n
  | .add n => n
  | .sub n => n
  | .sta n => n
  | .lda n => n
  | .bra n => n
  | .brz n => n
  | .inp n => n
  | .out n => n
  | .unassigned9 n => encode (.unassigned9 n)
  | .dat v => v

/-- The text of an instruction: mnemonic, one space, decimal without leading zeros (R79, R80). -/
def instrText (i : Instr) : List Char :=
  mnemonicOf i ++ ' ' :: Nat.toDigits 10 (printedOperand i)

/-- `disassemble(word)` as characters (R79, R80); a number above 999 is refused (D18). -/
def disassembleWord (word : Nat) : Except DecodeError (List Char) :=
  match decode word with
  | .ok i => .ok (instrText i)
  | .error e => .error e

/-- `disassemble(word)` (R79, R80). -/
def disassemble (word : Nat) : Except DecodeError String :=
  match disassembleWord word with
  | .ok text => .ok (String.ofList text)
  | .error e => .error e

end Sys2Proof.Machine
end

