-- ==== Sys2Proof/Machine/Load.lean ====
section
/-! DEFINITION. Reset and program load (70_reset_and_hazards.md, R180 to R184). -/

namespace Sys2Proof.Machine

/-- The image writes of R181: element by element, each through `MemWrite` at its own address, from address `i` on. -/
def installImage : Nat → List Int → Memory → Memory
  | _, [], m => m
  | i, v :: rest, m => installImage (i + 1) rest (memWrite m (i : Int) v)

/-- `load(program, inputData)` (R180): memory zeroed, then the image written from address 0; accumulator and program counter
0, output empty, Running; the input queue becomes `inputData`, unchecked (R182). Nothing of an earlier state survives, so
none is an argument (R183). -/
def load (program inputData : List Int) : State :=
  { mem := installImage 0 program [], acc := 0, pc := 0, inq := inputData, outq := [], halted := false }

end Sys2Proof.Machine
end

