-- ==== Sys2Proof/Machine/Run.lean ====
section
/-! DEFINITION. `run()` (R96): steps while Running, up to the first Halted state, without a bound. -/

namespace Sys2Proof.Machine

/-- `run()` started at `s` returns with the final state `t` (R96, R97). A run that never returns has no such `t`: it is an
infinite execution, not a final state (R191, D16). -/
inductive RunsTo : State → State → Prop where
  /-- Started in the Halted state it returns at once with nothing changed. -/
  | halted {s : State} (h : s.halted = true) : RunsTo s s
  /-- In the Running state it steps and goes on. -/
  | step {s s' t : State} (h : s.halted = false) (hs : step s = .next s') (hr : RunsTo s' t) : RunsTo s t

/-- A bounded executor for `run()`, the "wrapper around `step()`" of R96: the final state if it comes within `fuel` steps.
A tool, no part of the machine. -/
def runFor : Nat → State → Option State
  | 0, s => if s.halted then some s else none
  | fuel + 1, s =>
    if s.halted then some s
    else match step s with
      | .next s' => runFor fuel s'
      | .fault _ => none
      | .refused _ => none

end Sys2Proof.Machine
end

