-- ==== Sys2Proof/Machine/HostInterface.lean ====
section
/-! DEFINITION. The host interface (R172, R174): `load`, `step`, `run` and the read ports, and nothing else (D13).
A machine that was never loaded is `none`; every operation but `load` is refused there (R184, U10). -/

namespace Sys2Proof.Machine

/-- The read ports of R172. -/
inductive ReadPort where
  /-- `readMemory(addr)`, `addr` any integer (D23). -/
  | memory (addr : Int)
  /-- `readAccumulator()`. -/
  | accumulator
  /-- `readProgramCounter()`. -/
  | programCounter
  /-- The whole input queue, front first. -/
  | inputQueue
  /-- The whole output queue, oldest first. -/
  | outputQueue
  /-- `halted`. -/
  | haltState
  deriving DecidableEq, Repr

/-- What a read port gives back. -/
inductive PortValue where
  | number (v : Int)
  | numbers (vs : List Int)
  | flag (b : Bool)
  deriving DecidableEq, Repr

/-- The value at a read port (R172). A read changes nothing: it gives a value and no state. -/
def readPort (s : State) : ReadPort → PortValue
  | .memory addr => .number (((memRead s.mem addr).val : Int))
  | .accumulator => .number ((s.acc.val : Int))
  | .programCounter => .number ((s.pc.val : Int))
  | .inputQueue => .numbers s.inq
  | .outputQueue => .numbers (s.outq.map (fun v : Cell => (v.val : Int)))
  | .haltState => .flag s.halted

/-- The host's operations that change the machine and return (R174). -/
inductive HostOp where
  /-- `load(program, inputData)`: any time between steps, and as the first operation ever. -/
  | load (program inputData : List Int)
  /-- `step()`: after a `load`. -/
  | step
  deriving DecidableEq, Repr

/-- One host operation on a machine (R174), `none` before its first `load`. -/
def hostStep (machine : Option State) (op : HostOp) : Host.Outcome State Fault Refusal :=
  match op with
  | .load program inputData => .next (Sys2Proof.Machine.load program inputData)
  | .step =>
    match machine with
    | none => .refused .beforeFirstLoad
    | some s => Sys2Proof.Machine.step s

/-- A host read (R172, R174): refused before the first `load`. -/
def hostRead (machine : Option State) (port : ReadPort) : Except Refusal PortValue :=
  match machine with
  | none => .error .beforeFirstLoad
  | some s => .ok (readPort s port)

/-- The host's `run()` (R174): after a `load`; it may never return, and then no final state exists. -/
def HostRunsTo (machine : Option State) (t : State) : Prop :=
  ∃ s, machine = some s ∧ RunsTo s t

end Sys2Proof.Machine
end

