-- ==== Sys2Proof/Safety.lean ====
section
/-! DEFINITION. The terms in which claims speak of runs. `core.run k` is `k` steps of the host's interface; a step in the
Halted state changes nothing (R95). -/

namespace Sys2Proof.Machine

/-- From `s`, `k` steps lead to `t`. -/
def ReachesIn (k : Nat) (s t : State) : Prop := Sys2Proof.core.run k s = .next t

/-- No run from `s`, however long, meets a fault or a refusal (R160). -/
def SafeFrom (s : State) : Prop := ∀ k, ∃ t, ReachesIn k s t

/-- From `s` the machine runs for ever: after any number of steps it is still Running (R96, R191). -/
def HangsFrom (s : State) : Prop := ∀ k, ∃ t, ReachesIn k s t ∧ t.halted = false

end Sys2Proof.Machine
end

