-- ==== Sys2Proof/Certificates/Slice0/Obligations.lean ====
section
/-! DEFINITION. The statements for the provers. In a frame, every element of the state a statement does not give a new value
is said to be unchanged; an equation `t.mem = s.mem` says that every cell reads as before. -/

open Sys2Proof Sys2Proof.Machine

/-! ### Decoding and encoding -/

/-- R61, R62: the fields of a word, their ranges, and the inverse formula, with the rule's examples. -/
def Obligations.WordSplitsIntoOpcodeAndOperand : Prop :=
  (∀ w : Cell, (opcodeOf w).val = w.val / 100 ∧ operandOf w = w.val % 100 ∧
      w.val = (opcodeOf w).val * 100 + operandOf w ∧ (opcodeOf w).val ≤ 9 ∧
      Config.IsAddress (operandOf w : Int) ∧ Config.IsPcValue (operandOf w : Int)) ∧
    decode 405 = .ok (instrOfFields 4 5) ∧ decode 0 = .ok (instrOfFields 0 0) ∧
    decode 999 = .ok (instrOfFields 9 99) ∧ decode 99 = .ok (instrOfFields 0 99)

/-- The words of each row of the opcode map (30_encoding.md section 2), with every operand. -/
def Obligations.WordsOfEachRowDecodeToIt : Prop :=
  ∀ n : Nat, n ≤ 99 →
    decode n = .ok (.hlt n) ∧ decode (100 + n) = .ok (.add n) ∧ decode (200 + n) = .ok (.sub n) ∧
    decode (300 + n) = .ok (.sta n) ∧ decode (400 + n) = .ok (.lda n) ∧ decode (500 + n) = .ok (.bra n) ∧
    decode (600 + n) = .ok (.brz n) ∧ decode (700 + n) = .ok (.inp n) ∧ decode (800 + n) = .ok (.out n) ∧
    decode (900 + n) = .ok (.unassigned9 n)

/-- Words of the vectors V1 (95_test_vectors.md) decode to the instructions they stand for. -/
def Obligations.SampleWordsDecode : Prop :=
  decode 7 = .ok (.hlt 7) ∧ decode 199 = .ok (.add 99) ∧ decode 250 = .ok (.sub 50) ∧ decode 305 = .ok (.sta 5) ∧
  decode 407 = .ok (.lda 7) ∧ decode 599 = .ok (.bra 99) ∧ decode 600 = .ok (.brz 0) ∧ decode 742 = .ok (.inp 42) ∧
  decode 899 = .ok (.out 99) ∧ decode 900 = .ok (.unassigned9 0)

/-- No word of a cell is illegal (R67); a number above 999 is no word and is rejected by name (D18). -/
def Obligations.EveryWordDecodesAndNothingElse : Prop :=
  (∀ w : Cell, ∃ i, decode w.val = .ok i ∧ i.wellFormed = true ∧ i.isDat = false) ∧
  (∀ v : Nat, 999 < v → decode v = .error (.notAWord v))

/-- Decode and encode agree in both directions: on every well-formed instruction but DAT, whose word decodes to the
instruction the number spells, and on every word. -/
def Obligations.DecodeAndEncodeAgree : Prop :=
  (∀ i : Instr, i.wellFormed = true → i.isDat = false → decode (encode i) = .ok i) ∧
  (∀ w : Cell, encode (decodeCell w) = w.val ∧ decode (encode (.dat w.val)) = .ok (decodeCell w))

/-! ### The assembler and the disassembler -/

/-- The nine mnemonics with their opcodes (R64, R71). -/
def nineMnemonics : List (String × Nat) :=
  [("HLT", 0), ("ADD", 1), ("SUB", 2), ("STA", 3), ("LDA", 4), ("BRA", 5), ("BRZ", 6), ("INP", 7), ("OUT", 8)]

/-- R72, R73: a mnemonic and an operand give `opcode * 100 + operand`; DAT gives the literal. The operand is any digits whose
value is in range, the decimal of the number among them; that leading zeros are allowed is the spec's decision D7 (R77 c, log
entry 11). -/
def Obligations.AssembleGivesTheWord : Prop :=
  (∀ digits : List Char, digits ≠ [] → digits.all Char.isDigit = true →
    (∀ p ∈ nineMnemonics, readDecimal digits ≤ 99 →
      assembleLine (p.1.toList ++ ' ' :: digits) = .ok (p.2 * 100 + readDecimal digits)) ∧
    (readDecimal digits ≤ 999 → assembleLine ("DAT".toList ++ ' ' :: digits) = .ok (readDecimal digits))) ∧
  (∀ p ∈ nineMnemonics, ∀ n : Nat, n ≤ 99 → assemble (p.1 ++ " " ++ toString n) = .ok (p.2 * 100 + n)) ∧
  (∀ n : Nat, n ≤ 999 → assemble ("DAT " ++ toString n) = .ok n)

/-- R74: an omitted operand is 0 for each of the nine, and by the spec's decision D8 for DAT. -/
def Obligations.OmittedOperandIsZero : Prop :=
  (∀ p ∈ nineMnemonics, assemble p.1 = .ok (p.2 * 100)) ∧ assemble "DAT" = .ok 0

/-- R75: a line of the right shape whose mnemonic is none of the ten fails as unknown and gives no number. That the shape is
checked first and only upper case is recognised is the spec's decision D7 (R77, log entry 11); which lines have the right
shape, and so what counts as a mnemonic token, is the model's choice (log entry 12). -/
def Obligations.UnknownMnemonicFails : Prop :=
  (∀ (line name : List Char) (operand : Option Nat), lineShape line = some (name, operand) →
    (∀ p ∈ nineMnemonics, name ≠ p.1.toList) → name ≠ "DAT".toList →
    assembleLine line = .error ⟨.unknownMnemonic, line⟩) ∧
  assemble "FOO 1" = .error ⟨.unknownMnemonic, "FOO 1".toList⟩

/-- R76 (the spec's decision D6): an operand above 99 and a literal above 999 fail, however many digits write them; leading
zeros are allowed by the spec's decision D7 (R77 c). The decimal of every such number is among the digits. -/
def Obligations.OperandOutOfRangeFails : Prop :=
  (∀ digits : List Char, digits ≠ [] → digits.all Char.isDigit = true →
    (∀ p ∈ nineMnemonics, 99 < readDecimal digits →
      assembleLine (p.1.toList ++ ' ' :: digits) = .error ⟨.operandOutOfRange, p.1.toList ++ ' ' :: digits⟩) ∧
    (999 < readDecimal digits →
      assembleLine ("DAT".toList ++ ' ' :: digits) = .error ⟨.operandOutOfRange, "DAT".toList ++ ' ' :: digits⟩)) ∧
  (∀ p ∈ nineMnemonics, ∀ n : Nat, 99 < n →
    assemble (p.1 ++ " " ++ toString n) = .error ⟨.operandOutOfRange, (p.1 ++ " " ++ toString n).toList⟩) ∧
  (∀ n : Nat, 999 < n → assemble ("DAT " ++ toString n) = .error ⟨.operandOutOfRange, ("DAT " ++ toString n).toList⟩)

/-- R77 b, c, e (the spec's decision D7, log entry 11): a line that begins with a blank is malformed; so is a mnemonic-shaped
token, known or not, followed by a space alone, by a space, any digits (or none) and then a character that is no digit, or by a
blank other than the space, whatever comes after; so is the empty line. What a blank and a mnemonic-shaped token are is the
model's choice (log entry 12). -/
def Obligations.MalformedLinesFail : Prop :=
  (∀ (blank : Char) (rest : List Char), blank.isWhitespace = true →
    assembleLine (blank :: rest) = .error ⟨.malformedLine, blank :: rest⟩) ∧
  (∀ name : List Char, name ≠ [] → (∀ c ∈ name, c.isWhitespace = false) →
    assembleLine (name ++ [' ']) = .error ⟨.malformedLine, name ++ [' ']⟩ ∧
    (∀ (digits : List Char) (c : Char) (rest : List Char), digits.all Char.isDigit = true → c.isDigit = false →
      assembleLine (name ++ ' ' :: (digits ++ c :: rest)) =
        .error ⟨.malformedLine, name ++ ' ' :: (digits ++ c :: rest)⟩) ∧
    (∀ (blank : Char) (rest : List Char), blank.isWhitespace = true → blank ≠ ' ' →
      assembleLine (name ++ blank :: rest) = .error ⟨.malformedLine, name ++ blank :: rest⟩)) ∧
  assembleLine [] = .error ⟨.malformedLine, []⟩

/-- R79: the text of a word of an assigned opcode, the operand always printed. -/
def Obligations.DisassembleGivesMnemonicAndOperand : Prop :=
  ∀ p ∈ nineMnemonics, ∀ n : Nat, n ≤ 99 → disassemble (p.2 * 100 + n) = .ok (p.1 ++ " " ++ toString n)

/-- R80 (the spec's decisions D5, D18): words of opcode 9 print as DAT, numbers above 999 are refused. -/
def Obligations.DisassembleOfOtherNumbers : Prop :=
  (∀ n : Nat, n ≤ 99 → disassemble (900 + n) = .ok ("DAT " ++ toString (900 + n))) ∧
  (∀ v : Nat, 999 < v → disassemble v = .error (.notAWord v))

/-- R81: both round trips, and the two that are not. Clause (b) rests on R80, the spec's decision D5. -/
def Obligations.AssembleDisassembleRoundTrip : Prop :=
  (∀ p ∈ nineMnemonics, ∀ n : Nat, n ≤ 99 →
    ∃ w, assemble (p.1 ++ " " ++ toString n) = .ok w ∧ disassemble w = .ok (p.1 ++ " " ++ toString n)) ∧
  (∀ w : Nat, w ≤ 999 → ∃ text, disassemble w = .ok text ∧ assemble text = .ok w) ∧
  (assemble "HLT" = .ok 0 ∧ disassemble 0 = .ok "HLT 0") ∧
  (assemble "DAT 305" = .ok 305 ∧ disassemble 305 = .ok "STA 5")

/-- R78: what `assemble` answers is a number in [0, 999]; a program whose lines all assemble gives one word per line, and `load`
puts the first line's word at address 0, the next at 1, and so on. -/
def Obligations.AssembledProgramIsOneWordPerLine : Prop :=
  (∀ (line : String) (w : Nat), assemble line = .ok w → w ≤ 999) ∧
  (∀ lines : List String, (∀ line ∈ lines, ∃ w, assemble line = .ok w) → ∃ ws, assembleProgram lines = .ok ws) ∧
  (∀ (lines : List String) (ws : List Int), assembleProgram lines = .ok ws →
    List.Forall₂ (fun line w => ∃ n : Nat, assemble line = .ok n ∧ w = (n : Int)) lines ws ∧
    ∀ (input : List Int) (a : Nat), a ≤ 99 → ((memRead (load ws input).mem (a : Int)).val : Int) = ws.getD a 0)

/-! ### Memory -/

/-- R41: a read outside [0, 99] gives 0, one inside gives the cell; on every memory. -/
def Obligations.MemReadIsBoundsChecked : Prop :=
  ∀ (m : Memory) (a : Int),
    (0 ≤ a ∧ a ≤ 99 → memRead m a = memLookup m a.toNat) ∧ (¬ (0 ≤ a ∧ a ≤ 99) → memRead m a = 0)

/-- R42: a write with a good address and a good value changes that cell and no other; any other write changes nothing. -/
def Obligations.MemWriteChecksAddressAndValue : Prop :=
  ∀ (m : Memory) (a v : Int), m.wf = true →
    (0 ≤ a ∧ a ≤ 99 ∧ 0 ≤ v ∧ v ≤ 999 →
      ∀ b : Int, ((memRead (memWrite m a v) b).val : Int) = if b = a then v else ((memRead m b).val : Int)) ∧
    (¬ (0 ≤ a ∧ a ≤ 99 ∧ 0 ≤ v ∧ v ≤ 999) → memWrite m a v = m)

/-- Two memories in canonical form whose 100 cells read the same are the same data (R11, R40). -/
def Obligations.CanonicalMemoriesAreEqualWhenTheyReadEqual : Prop :=
  ∀ m m' : Memory, m.wf = true → m'.wf = true → (∀ a : Int, memRead m a = memRead m' a) → m = m'

/-- Every step keeps the memory in canonical form (the memory part of R26: no cell outside the 100 of R11 comes to be). -/
def Obligations.StepKeepsMemoryCanonical : Prop :=
  ∀ s t : State, s.mem.wf = true → step s = .next t → t.mem.wf = true

/-- The reset memory is in canonical form, and every address of it reads as 0 (R12). -/
def Obligations.ResetMemoryIsCanonicalAndZero : Prop :=
  State.reset.mem.wf = true ∧ ∀ a : Int, memRead State.reset.mem a = 0

/-- After every `load`, whatever the program holds, and after every number of steps from there, the memory is in canonical
form (the memory part of R26). -/
def Obligations.LoadedMachinesKeepMemoryCanonical : Prop :=
  ∀ (program input : List Int) (k : Nat) (t : State), ReachesIn k (load program input) t → t.mem.wf = true

/-! ### The instructions: each completes, with its effect and its frame -/

/-- R100: HLT halts and writes nothing else; every word 0 to 99 is HLT; after it `step` does nothing and `run` returns; no
other instruction halts (a DAT word of 0 to 99 is a HLT). -/
def Obligations.HltHaltsAndWritesNothingElse : Prop :=
  (∀ n : Nat, n ≤ 99 → decode n = .ok (.hlt n)) ∧
  (∀ (x : Nat) (s : State), ∃ t, exec (.hlt x) s = .next t ∧ t.halted = true ∧
    t.mem = s.mem ∧ t.acc = s.acc ∧ t.pc = s.pc ∧ t.inq = s.inq ∧ t.outq = s.outq ∧
    step t = .next t ∧ RunsTo t t) ∧
  (∀ (i : Instr) (s t : State), exec i s = .next t → s.halted = false → t.halted = true →
    (∃ x, i = .hlt x) ∨ ∃ v, v ≤ 99 ∧ i = .dat v)

/-- R110: ADD writes the exact sum when it is at most 999, nothing otherwise. -/
def Obligations.AddWritesTheSumWhenInRange : Prop :=
  (∀ n : Nat, n ≤ 99 → decode (100 + n) = .ok (.add n)) ∧
  ∀ (n : Nat) (s : State), ∃ t, exec (.add n) s = .next t ∧
    t.acc.val = (if s.acc.val + (memRead s.mem (n : Int)).val ≤ 999
      then s.acc.val + (memRead s.mem (n : Int)).val else s.acc.val) ∧
    t.mem = s.mem ∧ t.pc = s.pc ∧ t.inq = s.inq ∧ t.outq = s.outq ∧ t.halted = s.halted

/-- R111: SUB writes the exact difference when it is not negative, nothing otherwise. -/
def Obligations.SubWritesTheDifferenceWhenNotNegative : Prop :=
  (∀ n : Nat, n ≤ 99 → decode (200 + n) = .ok (.sub n)) ∧
  ∀ (n : Nat) (s : State), ∃ t, exec (.sub n) s = .next t ∧
    (t.acc.val : Int) = (if (s.acc.val : Int) ≥ ((memRead s.mem (n : Int)).val : Int)
      then (s.acc.val : Int) - ((memRead s.mem (n : Int)).val : Int) else (s.acc.val : Int)) ∧
    t.mem = s.mem ∧ t.pc = s.pc ∧ t.inq = s.inq ∧ t.outq = s.outq ∧ t.halted = s.halted

/-- R120: STA stores the accumulator at its effective address, always, and changes no other cell and nothing else. -/
def Obligations.StaStoresTheAccumulator : Prop :=
  (∀ n : Nat, n ≤ 99 → decode (300 + n) = .ok (.sta n)) ∧
  ∀ (n : Nat) (s : State), n ≤ 99 → s.mem.wf = true → ∃ t, exec (.sta n) s = .next t ∧
    memRead t.mem (effectiveAddress n) = s.acc ∧
    (∀ a : Int, a ≠ effectiveAddress n → memRead t.mem a = memRead s.mem a) ∧
    t.acc = s.acc ∧ t.pc = s.pc ∧ t.inq = s.inq ∧ t.outq = s.outq ∧ t.halted = s.halted

/-- R121: LDA loads the cell, always; the cell is unchanged. -/
def Obligations.LdaLoadsTheCell : Prop :=
  (∀ n : Nat, n ≤ 99 → decode (400 + n) = .ok (.lda n)) ∧
  ∀ (n : Nat) (s : State), ∃ t, exec (.lda n) s = .next t ∧ t.acc = memRead s.mem (n : Int) ∧
    t.mem = s.mem ∧ t.pc = s.pc ∧ t.inq = s.inq ∧ t.outq = s.outq ∧ t.halted = s.halted

/-- R130: BRA sets the program counter to its operand, always. -/
def Obligations.BraSetsTheProgramCounter : Prop :=
  (∀ n : Nat, n ≤ 99 → decode (500 + n) = .ok (.bra n)) ∧
  ∀ (n : Nat) (s : State), n ≤ 99 → ∃ t, exec (.bra n) s = .next t ∧ t.pc.val = n ∧
    t.mem = s.mem ∧ t.acc = s.acc ∧ t.inq = s.inq ∧ t.outq = s.outq ∧ t.halted = s.halted

/-- R131: BRZ sets the program counter to its operand when the accumulator is 0, and writes nothing otherwise. -/
def Obligations.BrzBranchesOnZeroAccumulator : Prop :=
  (∀ n : Nat, n ≤ 99 → decode (600 + n) = .ok (.brz n)) ∧
  ∀ (n : Nat) (s : State), n ≤ 99 → ∃ t, exec (.brz n) s = .next t ∧
    t.pc.val = (if s.acc.val = 0 then n else s.pc.val) ∧
    t.mem = s.mem ∧ t.acc = s.acc ∧ t.inq = s.inq ∧ t.outq = s.outq ∧ t.halted = s.halted

/-- R20, R140: INP takes the front of the input queue, or 0 from an empty one; a value outside [0, 999] is consumed and the
accumulator keeps its value. -/
def Obligations.InpTakesTheFrontOfTheInput : Prop :=
  (∀ n : Nat, n ≤ 99 → decode (700 + n) = .ok (.inp n)) ∧
  ∀ (x : Nat) (s : State), ∃ t, exec (.inp x) s = .next t ∧
    (s.inq = [] → t.acc.val = 0 ∧ t.inq = []) ∧
    (∀ (v : Int) (rest : List Int), s.inq = v :: rest →
      (t.acc.val : Int) = (if 0 ≤ v ∧ v ≤ 999 then v else (s.acc.val : Int)) ∧ t.inq = rest) ∧
    t.mem = s.mem ∧ t.pc = s.pc ∧ t.outq = s.outq ∧ t.halted = s.halted

/-- R22, R141: OUT appends the accumulator to the output queue, always. -/
def Obligations.OutAppendsTheAccumulator : Prop :=
  (∀ n : Nat, n ≤ 99 → decode (800 + n) = .ok (.out n)) ∧
  ∀ (x : Nat) (s : State), ∃ t, exec (.out x) s = .next t ∧ t.outq = s.outq ++ [s.acc] ∧
    t.mem = s.mem ∧ t.acc = s.acc ∧ t.pc = s.pc ∧ t.inq = s.inq ∧ t.halted = s.halted

/-- R150: a word 900 to 999 changes nothing but the fetch's advance of the program counter. -/
def Obligations.OpcodeNineIsANoOperation : Prop :=
  (∀ n : Nat, n ≤ 99 → decode (900 + n) = .ok (.unassigned9 n)) ∧
  (∀ (x : Nat) (s : State), exec (.unassigned9 x) s = .next s) ∧
  (∀ s : State, s.halted = false → 900 ≤ (memRead s.mem (s.pc.val : Int)).val →
    ∃ t, step s = .next t ∧ t.pc.val = (if s.pc.val ≤ 98 then s.pc.val + 1 else 99) ∧
      t.mem = s.mem ∧ t.acc = s.acc ∧ t.inq = s.inq ∧ t.outq = s.outq ∧ t.halted = false)

/-- A DAT word that is executed completes, as the instruction its number spells (R66; log entry 7). -/
def Obligations.DatExecutesAsTheWordItSpells : Prop :=
  ∀ (w : Cell) (s : State), ∃ t, exec (.dat w.val) s = .next t ∧ exec (decodeCell w) s = .next t

/-- R65 (the spec's decision D22): the digits HLT, INP, OUT and opcode 9 do not use change nothing. -/
def Obligations.IgnoredOperandDigitsDoNotMatter : Prop :=
  ∀ (x y : Nat) (s : State), exec (.hlt x) s = exec (.hlt y) s ∧ exec (.inp x) s = exec (.inp y) s ∧
    exec (.out x) s = exec (.out y) s ∧ exec (.unassigned9 x) s = exec (.unassigned9 y) s

/-- R160: every instruction and every step answers a next state, and so does every run of steps. That the next state is valid
(R26) is in the types of its fields; the canonical form of its memory is StepKeepsMemoryCanonical. -/
def Obligations.NothingFaults : Prop :=
  (∀ (i : Instr) (s : State), ∃ t, exec i s = .next t) ∧ (∀ s : State, ∃ t, step s = .next t) ∧
  (∀ s : State, SafeFrom s)

/-! ### Laws of pairs of instructions -/

/-- After an accepted ADD, SUB of the same cell restores the state (R113). -/
def Obligations.SubUndoesAnAcceptedAdd : Prop :=
  ∀ (n : Nat) (s : State), s.acc.val + (memRead s.mem (n : Int)).val ≤ 999 →
    ∃ t, exec (.add n) s = .next t ∧ exec (.sub n) t = .next s

/-- SUB of the accumulator's own stored copy gives 0 (R111 f). -/
def Obligations.SubOfOwnStoredCopyGivesZero : Prop :=
  ∀ (n : Nat) (s : State), n ≤ 99 → s.mem.wf = true →
    ∃ t u, exec (.sta n) s = .next t ∧ exec (.sub n) t = .next u ∧ u.acc.val = 0

/-! ### The cycle -/

/-- R91: the fetch reads the cell at the program counter, advances the program counter by one unless it is 99, and changes
nothing else. -/
def Obligations.FetchReadsAndAdvances : Prop :=
  ∀ s : State, (fetch s).1 = memRead s.mem (s.pc.val : Int) ∧
    (s.pc.val ≤ 98 → (fetch s).2.pc.val = s.pc.val + 1) ∧ (s.pc.val = 99 → (fetch s).2.pc.val = 99) ∧
    (fetch s).2.mem = s.mem ∧ (fetch s).2.acc = s.acc ∧ (fetch s).2.inq = s.inq ∧
    (fetch s).2.outq = s.outq ∧ (fetch s).2.halted = s.halted

/-- A Running step is the execution of the decoded instruction, after the fetch's advance (R95). -/
def Obligations.StepRunsTheDecodedInstruction : Prop :=
  ∀ (s : State) (i : Instr), s.halted = false → decode (memRead s.mem (s.pc.val : Int)).val = .ok i →
    step s = exec i (fetch s).2

/-- A step in the Halted state changes nothing, and `run` started there returns at once (R95, R96; the spec's D3). -/
def Obligations.HaltedStepAndRunDoNothing : Prop :=
  ∀ s : State, s.halted = true → step s = .next s ∧ ∀ t : State, RunsTo s t ↔ t = s

/-- R90: the transition table of the state machine. -/
def Obligations.OnlyHltHaltsAndOnlyLoadResumes : Prop :=
  (∀ (machine : Option State) (program input : List Int),
    ∃ t, hostStep machine (.load program input) = .next t ∧ t.halted = false) ∧
  (∀ s t : State, s.halted = false → step s = .next t →
    ((memRead s.mem (s.pc.val : Int)).val / 100 = 0 → t = (fetch s).2.setHalted true) ∧
    ((memRead s.mem (s.pc.val : Int)).val / 100 ≠ 0 → t.halted = false)) ∧
  (∀ s : State, s.halted = true → step s = .next s ∧ ∀ t, RunsTo s t ↔ t = s) ∧
  (∀ (s t : State) (op : HostOp), s.halted = true → hostStep (some s) op = .next t → t.halted = false →
    ∃ program input, op = .load program input)

/-- Where a Running step leaves the program counter: at the operand of a taken branch, else one further, or at 99 (R94). -/
def Obligations.ProgramCounterAfterAStep : Prop :=
  ∀ s t : State, s.halted = false → step s = .next t →
    t.pc.val =
      if (memRead s.mem (s.pc.val : Int)).val / 100 = 5 ∨
          ((memRead s.mem (s.pc.val : Int)).val / 100 = 6 ∧ s.acc.val = 0)
      then (memRead s.mem (s.pc.val : Int)).val % 100
      else if s.pc.val ≤ 98 then s.pc.val + 1 else 99

/-- R12: memory is zero at reset, and a cell changes only by `load` or by a STA that names it, to the accumulator. -/
def Obligations.OnlyStaAndLoadChangeMemory : Prop :=
  (∀ a : Int, memRead (load [] []).mem a = 0) ∧
  ∀ (s t : State) (op : HostOp) (a : Int), s.mem.wf = true → hostStep (some s) op = .next t →
    memRead t.mem a ≠ memRead s.mem a →
    (∃ program input, op = .load program input) ∨
    (op = .step ∧ s.halted = false ∧ (memRead s.mem (s.pc.val : Int)).val / 100 = 3 ∧
      a = (((memRead s.mem (s.pc.val : Int)).val % 100 : Nat) : Int) ∧ memRead t.mem a = s.acc)

/-- The accumulator changes only in a step of ADD, SUB, LDA or INP (R14, R112). -/
def Obligations.OnlyAddSubLdaInpChangeTheAccumulator : Prop :=
  ∀ s t : State, step s = .next t → t.acc ≠ s.acc →
    s.halted = false ∧ ((memRead s.mem (s.pc.val : Int)).val / 100 = 1 ∨
      (memRead s.mem (s.pc.val : Int)).val / 100 = 2 ∨ (memRead s.mem (s.pc.val : Int)).val / 100 = 4 ∨
      (memRead s.mem (s.pc.val : Int)).val / 100 = 7)

/-- In a step the input queue loses its front exactly when INP executes, and the output queue gains the accumulator exactly
when OUT executes; nothing else touches a queue (R19, R21, R142). -/
def Obligations.QueuesChangeOnlyByInpAndOut : Prop :=
  ∀ s t : State, s.halted = false → step s = .next t →
    t.inq = (if (memRead s.mem (s.pc.val : Int)).val / 100 = 7 then s.inq.tail else s.inq) ∧
    t.outq = (if (memRead s.mem (s.pc.val : Int)).val / 100 = 8 then s.outq ++ [s.acc] else s.outq)

/-- Along every run the output queue only grows at its back, by at most one value a step, the input queue only loses from
its front, and a Halted machine stays as it is (R19, R21, R90). -/
def Obligations.RunsOnlyAppendOutputAndConsumeInput : Prop :=
  ∀ (k : Nat) (s t : State), ReachesIn k s t →
    s.outq <+: t.outq ∧ t.outq.length ≤ s.outq.length + k ∧ t.inq <:+ s.inq ∧ (s.halted = true → t = s)

/-- No step reads the output queue (R21: it is never consumed by the engine itself): with another output queue the step does
the same to everything else and appends the same values. -/
def Obligations.OutputQueueIsNeverRead : Prop :=
  ∀ (s t : State) (q : List Cell), step s = .next t →
    ∃ u added, step (s.setOutq q) = .next u ∧ t.outq = s.outq ++ added ∧ u.outq = q ++ added ∧
      u.mem = t.mem ∧ u.acc = t.acc ∧ u.pc = t.pc ∧ u.inq = t.inq ∧ u.halted = t.halted

/-- A store is seen by the very next fetch, even over the next instruction or over the STA itself (R52). -/
def Obligations.StoreIsSeenByTheNextFetch : Prop :=
  ∀ s t : State, s.halted = false → s.mem.wf = true → (memRead s.mem (s.pc.val : Int)).val / 100 = 3 →
    step s = .next t →
    (fetch t).1 = if t.pc.val = (memRead s.mem (s.pc.val : Int)).val % 100 then s.acc
      else memRead s.mem (t.pc.val : Int)

/-! ### Runs -/

/-- `run()` returns with `t` exactly when some number of steps leads to `t` and `t` is Halted; the bounded executor finds it
with enough fuel (R96, D16). -/
def Obligations.RunIsIterationOfStep : Prop :=
  ∀ s t : State, (RunsTo s t ↔ ∃ k, ReachesIn k s t ∧ t.halted = true) ∧
    (RunsTo s t ↔ ∃ fuel, runFor fuel s = some t)

/-- A run ends only in a Halted state, and in one state only (R97, R98). -/
def Obligations.RunEndsHaltedAndInOneState : Prop :=
  ∀ s t u : State, RunsTo s t → RunsTo s u → t.halted = true ∧ t = u

/-- A machine either has a run that returns or runs for ever; there is no third case (R96, R191). -/
def Obligations.HangIsTheAbsenceOfAFinalState : Prop :=
  ∀ s : State, HangsFrom s ↔ ¬ ∃ t, RunsTo s t

/-- BRA to its own address is an infinite loop with no change of state (R130 b). -/
def Obligations.BraToItselfHangs : Prop :=
  ∀ s : State, s.halted = false → (memRead s.mem (s.pc.val : Int)).val = 500 + s.pc.val →
    HangsFrom s ∧ ∀ k t, ReachesIn k s t → t = s

/-- At address 99 an instruction that is no HLT, no taken branch and no STA over its own cell is executed for ever: the
program counter stays 99 and the cell keeps its word (R187; log entry 15 on its STA). -/
def Obligations.FallingOffTheEndNeverHalts : Prop :=
  ∀ s : State, s.halted = false → s.mem.wf = true → s.pc.val = 99 →
    (memRead s.mem 99).val / 100 ≠ 0 → (memRead s.mem 99).val / 100 ≠ 5 →
    ((memRead s.mem 99).val / 100 = 6 → s.acc.val ≠ 0) → (memRead s.mem 99).val ≠ 399 →
    HangsFrom s ∧ ∀ k t, ReachesIn k s t → t.pc.val = 99 ∧ memRead t.mem 99 = memRead s.mem 99

/-! ### Reset, load and the host -/

/-- R180: what `load` leaves, whatever the machine was before: the image where it fits, zeros elsewhere, and every other
element at its reset value. That an image element outside [0, 999] leaves its cell 0 and shifts no later element is the spec's
decision D11 (R181 b, log entry 9). -/
def Obligations.LoadResetsEverything : Prop :=
  ∀ (machine : Option State) (program input : List Int), ∃ t,
    hostStep machine (.load program input) = .next t ∧
    (∀ a : Int, ((memRead t.mem a).val : Int) =
      if 0 ≤ a ∧ a ≤ 99 ∧ 0 ≤ program.getD a.toNat 0 ∧ program.getD a.toNat 0 ≤ 999
      then program.getD a.toNat 0 else 0) ∧
    t.acc.val = 0 ∧ t.pc.val = 0 ∧ t.inq = input ∧ t.outq = [] ∧ t.halted = false

/-- The bare reset is `load([], [])` (R184), and one step from it executes the HLT at address 0. -/
def Obligations.BareResetIsTheEmptyLoad : Prop :=
  load [] [] = State.reset ∧ ∃ t, step State.reset = .next t ∧ t.pc.val = 1 ∧ t.halted = true ∧
    t.mem = [] ∧ t.acc.val = 0 ∧ t.inq = [] ∧ t.outq = []

/-- Before the first `load` every other host operation is refused by name (R184, the spec's D12). -/
def Obligations.BeforeTheFirstLoadOnlyLoadWorks : Prop :=
  hostStep none .step = .refused .beforeFirstLoad ∧ (∀ port, hostRead none port = .error .beforeFirstLoad) ∧
  (∀ t, ¬ HostRunsTo none t)

/-- R172: what each read port gives, and that memory outside [0, 99] reads as 0. -/
def Obligations.ReadPortsShowTheState : Prop :=
  ∀ s : State,
    (∀ a : Int, hostRead (some s) (.memory a) =
      .ok (.number (if 0 ≤ a ∧ a ≤ 99 then ((memLookup s.mem a.toNat).val : Int) else 0))) ∧
    hostRead (some s) .accumulator = .ok (.number ((s.acc.val : Int))) ∧
    hostRead (some s) .programCounter = .ok (.number ((s.pc.val : Int))) ∧
    hostRead (some s) .inputQueue = .ok (.numbers s.inq) ∧
    hostRead (some s) .outputQueue = .ok (.numbers (s.outq.map (fun v : Cell => (v.val : Int)))) ∧
    hostRead (some s) .haltState = .ok (.flag s.halted)

/-- A word placed for the fetch is the instruction the next step runs, from any state with a canonical memory (the model's
stand-in for a load of one word, log entry 4). -/
def Obligations.PlacedWordIsRunNext : Prop :=
  ∀ (s : State) (nbits w : Nat) (i : Instr), s.mem.wf = true → decodeTableWord nbits w = some i →
    step (s.withFetchWord nbits w) = exec i (s.withFetchWord nbits w).advance ∧
    (memRead (s.withFetchWord nbits w).mem (s.pc.val : Int)).val = w ∧ (s.withFetchWord nbits w).halted = false ∧
    (∀ a : Int, a ≠ (s.pc.val : Int) → memRead (s.withFetchWord nbits w).mem a = memRead s.mem a) ∧
    (s.withFetchWord nbits w).acc = s.acc ∧ (s.withFetchWord nbits w).pc = s.pc ∧
    (s.withFetchWord nbits w).inq = s.inq ∧ (s.withFetchWord nbits w).outq = s.outq

/-! ### A program with a failing line -/

/-- The model's choice where the spec is silent (log entry 22): a program in which some line fails gives no words but the error
of its first failing line, whatever the lines after it are. -/
def Obligations.ProgramWithAFailingLineFails : Prop :=
  ∀ (before after : List String) (line : String) (e : AssemblyError),
    (∀ l ∈ before, ∃ w, assemble l = .ok w) → assemble line = .error e →
    assembleProgram (before ++ line :: after) = .error e
end

