-- ==== Sys2Proof/Laws/Decode.lean ====
section
/-! SUPPORT. Small lemmas of the decoder and the encoder. -/

namespace Sys2Proof

theorem opcodeOf_val (w : Cell) : (opcodeOf w).val = w.val / 100 := rfl

theorem operandOf_le (w : Cell) : operandOf w ≤ 99 := by unfold operandOf; omega

/-- A word is its opcode times 100 plus its operand (R61). -/
theorem opcode_operand_split (w : Cell) : (opcodeOf w).val * 100 + operandOf w = w.val := by
  simp only [opcodeOf, operandOf]; omega

theorem opcodeOf_mk {k n : Nat} (hk : k < 10) (hn : n ≤ 99) :
    opcodeOf ⟨k * 100 + n, by omega⟩ = ⟨k, hk⟩ := by
  apply Fin.ext; simp only [opcodeOf]; omega

theorem operandOf_mk {k n : Nat} (hk : k < 10) (hn : n ≤ 99) :
    operandOf ⟨k * 100 + n, by omega⟩ = n := by
  simp only [operandOf]; omega

theorem decode_of_lt {v : Nat} (h : v < 1000) : decode v = .ok (decodeCell ⟨v, h⟩) := by
  simp only [decode, h, dif_pos]

theorem decode_of_ge {v : Nat} (h : 1000 ≤ v) : decode v = .error (.notAWord v) := by
  simp only [decode, Nat.not_lt.mpr h, dif_neg, not_false_iff]

theorem decode_cell (w : Cell) : decode w.val = .ok (decodeCell w) := decode_of_lt w.isLt

/-- The word `k * 100 + n` decodes to the instruction of opcode `k` with operand `n` (R61, R64). -/
theorem decode_fields {k n : Nat} (hk : k < 10) (hn : n ≤ 99) :
    decode (k * 100 + n) = .ok (instrOfFields ⟨k, hk⟩ n) := by
  rw [decode_of_lt (by omega : k * 100 + n < 1000), decodeCell, opcodeOf_mk hk hn, operandOf_mk hk hn]

/-- Encoding puts the opcode in the hundreds digit, whatever the opcode (R61, R72). -/
theorem encode_instrOfFields (k : Fin 10) (n : Nat) : encode (instrOfFields k n) = k.val * 100 + n := by
  fin_cases k <;> rfl

theorem instrOfFields_not_dat (k : Fin 10) (n : Nat) : (instrOfFields k n).isDat = false := by
  fin_cases k <;> rfl

end Sys2Proof
end

