-- ==== Sys2Proof/Laws/State.lean ====
section
/-! SUPPORT. One lemma per field per update of the state, and the canonical form of the reset memory. -/

namespace Sys2Proof.Machine

@[simp] theorem State.setMem_mem (s : State) (m : Memory) : (s.setMem m).mem = m := rfl
@[simp] theorem State.setMem_acc (s : State) (m : Memory) : (s.setMem m).acc = s.acc := rfl
@[simp] theorem State.setMem_pc (s : State) (m : Memory) : (s.setMem m).pc = s.pc := rfl
@[simp] theorem State.setMem_inq (s : State) (m : Memory) : (s.setMem m).inq = s.inq := rfl
@[simp] theorem State.setMem_outq (s : State) (m : Memory) : (s.setMem m).outq = s.outq := rfl
@[simp] theorem State.setMem_halted (s : State) (m : Memory) : (s.setMem m).halted = s.halted := rfl

@[simp] theorem State.setAcc_mem (s : State) (v : Cell) : (s.setAcc v).mem = s.mem := rfl
@[simp] theorem State.setAcc_acc (s : State) (v : Cell) : (s.setAcc v).acc = v := rfl
@[simp] theorem State.setAcc_pc (s : State) (v : Cell) : (s.setAcc v).pc = s.pc := rfl
@[simp] theorem State.setAcc_inq (s : State) (v : Cell) : (s.setAcc v).inq = s.inq := rfl
@[simp] theorem State.setAcc_outq (s : State) (v : Cell) : (s.setAcc v).outq = s.outq := rfl
@[simp] theorem State.setAcc_halted (s : State) (v : Cell) : (s.setAcc v).halted = s.halted := rfl

@[simp] theorem State.setPc_mem (s : State) (a : Addr) : (s.setPc a).mem = s.mem := rfl
@[simp] theorem State.setPc_acc (s : State) (a : Addr) : (s.setPc a).acc = s.acc := rfl
@[simp] theorem State.setPc_pc (s : State) (a : Addr) : (s.setPc a).pc = a := rfl
@[simp] theorem State.setPc_inq (s : State) (a : Addr) : (s.setPc a).inq = s.inq := rfl
@[simp] theorem State.setPc_outq (s : State) (a : Addr) : (s.setPc a).outq = s.outq := rfl
@[simp] theorem State.setPc_halted (s : State) (a : Addr) : (s.setPc a).halted = s.halted := rfl

@[simp] theorem State.setInq_mem (s : State) (q : List Int) : (s.setInq q).mem = s.mem := rfl
@[simp] theorem State.setInq_acc (s : State) (q : List Int) : (s.setInq q).acc = s.acc := rfl
@[simp] theorem State.setInq_pc (s : State) (q : List Int) : (s.setInq q).pc = s.pc := rfl
@[simp] theorem State.setInq_inq (s : State) (q : List Int) : (s.setInq q).inq = q := rfl
@[simp] theorem State.setInq_outq (s : State) (q : List Int) : (s.setInq q).outq = s.outq := rfl
@[simp] theorem State.setInq_halted (s : State) (q : List Int) : (s.setInq q).halted = s.halted := rfl

@[simp] theorem State.setOutq_mem (s : State) (q : List Cell) : (s.setOutq q).mem = s.mem := rfl
@[simp] theorem State.setOutq_acc (s : State) (q : List Cell) : (s.setOutq q).acc = s.acc := rfl
@[simp] theorem State.setOutq_pc (s : State) (q : List Cell) : (s.setOutq q).pc = s.pc := rfl
@[simp] theorem State.setOutq_inq (s : State) (q : List Cell) : (s.setOutq q).inq = s.inq := rfl
@[simp] theorem State.setOutq_outq (s : State) (q : List Cell) : (s.setOutq q).outq = q := rfl
@[simp] theorem State.setOutq_halted (s : State) (q : List Cell) : (s.setOutq q).halted = s.halted := rfl

@[simp] theorem State.setHalted_mem (s : State) (b : Bool) : (s.setHalted b).mem = s.mem := rfl
@[simp] theorem State.setHalted_acc (s : State) (b : Bool) : (s.setHalted b).acc = s.acc := rfl
@[simp] theorem State.setHalted_pc (s : State) (b : Bool) : (s.setHalted b).pc = s.pc := rfl
@[simp] theorem State.setHalted_inq (s : State) (b : Bool) : (s.setHalted b).inq = s.inq := rfl
@[simp] theorem State.setHalted_outq (s : State) (b : Bool) : (s.setHalted b).outq = s.outq := rfl
@[simp] theorem State.setHalted_halted (s : State) (b : Bool) : (s.setHalted b).halted = b := rfl

/-- Two states with the same six elements are equal (R10: there is no other state). -/
theorem State.eq_of_fields {s t : State} (hm : s.mem = t.mem) (ha : s.acc = t.acc) (hp : s.pc = t.pc)
    (hi : s.inq = t.inq) (ho : s.outq = t.outq) (hh : s.halted = t.halted) : s = t := by
  cases s; cases t; simp_all

end Sys2Proof.Machine
end

