-- ==== Sys2Proof/Laws/Ops.lean ====
section
/-! SUPPORT. What each access primitive does, once: memory reads after writes, the canonical form, and the fields the
guarded writes, the queues and the fetch leave alone. -/

namespace Sys2Proof.Machine

/-! ### The canonical form -/

theorem Memory.wfFrom_cons {lo a : Nat} {v : Cell} {rest : Memory} :
    Memory.wfFrom lo ((a, v) :: rest) = true ↔
      lo ≤ a ∧ a ≤ 99 ∧ v ≠ 0 ∧ Memory.wfFrom (a + 1) rest = true := by
  simp only [Memory.wfFrom, Bool.and_eq_true, decide_eq_true_eq, and_assoc]

theorem Memory.wfFrom_mono {lo lo' : Nat} (h : lo' ≤ lo) :
    ∀ {m : Memory}, Memory.wfFrom lo m = true → Memory.wfFrom lo' m = true
  | [], _ => rfl
  | (_, _) :: _, hm => by
    obtain ⟨h1, h2⟩ := Memory.wfFrom_cons.mp hm
    exact Memory.wfFrom_cons.mpr ⟨by omega, h2⟩

/-- Below the first listed address everything reads as 0. -/
theorem memLookup_below {a : Nat} :
    ∀ {lo : Nat} {m : Memory}, Memory.wfFrom lo m = true → a < lo → memLookup m a = 0
  | _, [], _, _ => rfl
  | lo, (k, w) :: rest, hm, ha => by
    obtain ⟨h1, _, _, h4⟩ := Memory.wfFrom_cons.mp hm
    simp only [memLookup, show ¬ k = a by omega, if_false]
    exact memLookup_below h4 (by omega)

/-- A store keeps the canonical form. -/
theorem memStore_wfFrom {a : Nat} {v : Cell} (ha : a ≤ 99) :
    ∀ {lo : Nat} {m : Memory}, lo ≤ a → Memory.wfFrom lo m = true → Memory.wfFrom lo (memStore m a v) = true
  | lo, [], hlo, _ => by
    unfold memStore; split
    · rfl
    · next hv => exact Memory.wfFrom_cons.mpr ⟨hlo, ha, hv, rfl⟩
  | lo, (k, w) :: rest, hlo, hm => by
    obtain ⟨h1, h2, h3, h4⟩ := Memory.wfFrom_cons.mp hm
    unfold memStore
    split
    · split
      · exact hm
      · next hak hv => exact Memory.wfFrom_cons.mpr ⟨hlo, ha, hv, Memory.wfFrom_cons.mpr ⟨by omega, h2, h3, h4⟩⟩
    · split
      · next hak =>
        subst hak
        split
        · exact Memory.wfFrom_mono (by omega) h4
        · next hv => exact Memory.wfFrom_cons.mpr ⟨h1, h2, hv, h4⟩
      · exact Memory.wfFrom_cons.mpr ⟨h1, h2, h3, memStore_wfFrom ha (by omega) h4⟩

/-- Reading one address after a store: the stored value there, the old value elsewhere. -/
theorem memLookup_memStore {a b : Nat} {v : Cell} :
    ∀ {lo : Nat} {m : Memory}, Memory.wfFrom lo m = true →
      memLookup (memStore m a v) b = if b = a then v else memLookup m b
  | _, [], _ => by
    by_cases hv : v = 0 <;> by_cases hb : a = b <;> simp [memStore, memLookup, hv, hb, eq_comm]
  | lo, (k, w) :: rest, hm => by
    obtain ⟨h1, h2, h3, h4⟩ := Memory.wfFrom_cons.mp hm
    unfold memStore
    split
    · next hak =>
      split
      · next hv =>
        split
        · next hb => rw [hv]; exact memLookup_below (Memory.wfFrom_mono (Nat.le_refl k)
            (Memory.wfFrom_cons.mpr ⟨Nat.le_refl k, h2, h3, h4⟩)) (by omega)
        · rfl
      · by_cases hb : a = b <;> simp [memLookup, hb, eq_comm]
    · split
      · next hak =>
        subst hak
        split
        · next hv =>
          split
          · next hb => rw [hv, hb]; exact memLookup_below h4 (by omega)
          · next hb => simp [memLookup, show ¬ a = b by omega]
        · by_cases hb : a = b <;> simp [memLookup, hb, eq_comm]
      · next hlt hne =>
        by_cases hb : k = b
        · simp [memLookup, hb, show ¬ b = a by omega]
        · simp only [memLookup, hb, if_false]
          exact memLookup_memStore h4

/-! ### Bounds-checked memory -/

@[simp] theorem memRead_nil (addr : Int) : memRead [] addr = 0 := by
  unfold memRead; split <;> rfl

theorem memRead_in {m : Memory} {a : Int} (h : 0 ≤ a ∧ a ≤ 99) : memRead m a = memLookup m a.toNat := if_pos h

theorem memRead_out {m : Memory} {a : Int} (h : ¬ (0 ≤ a ∧ a ≤ 99)) : memRead m a = 0 := if_neg h

theorem memWrite_badValue {m : Memory} {a v : Int} (h : ¬ (0 ≤ v ∧ v ≤ 999)) : memWrite m a v = m := dif_neg h

theorem memWrite_badAddress {m : Memory} {a v : Int} (h : ¬ (0 ≤ a ∧ a ≤ 99)) : memWrite m a v = m := by
  by_cases hv : 0 ≤ v ∧ v ≤ 999
  · exact (dif_pos hv).trans (if_neg h)
  · exact memWrite_badValue hv

theorem memWrite_in {m : Memory} {a v : Int} (ha : 0 ≤ a ∧ a ≤ 99) (hv : 0 ≤ v ∧ v ≤ 999) :
    memWrite m a v = memStore m a.toNat ⟨v.toNat, by omega⟩ := by
  unfold memWrite; rw [dif_pos hv, if_pos ha]

/-- A bounds-checked write keeps the canonical form. -/
theorem memWrite_wf {m : Memory} {a v : Int} (hm : m.wf = true) : Memory.wf (memWrite m a v) = true := by
  by_cases hv : 0 ≤ v ∧ v ≤ 999
  · by_cases ha : 0 ≤ a ∧ a ≤ 99
    · rw [memWrite_in ha hv]; exact memStore_wfFrom (by omega) (Nat.zero_le _) hm
    · rwa [memWrite_badAddress ha]
  · rwa [memWrite_badValue hv]

/-- Everything a read can give after a bounds-checked write. -/
theorem memRead_memWrite {m : Memory} {a b v : Int} (hm : m.wf = true) (ha : 0 ≤ a ∧ a ≤ 99) (hv : 0 ≤ v ∧ v ≤ 999) :
    memRead (memWrite m a v) b = if b = a then ⟨v.toNat, by omega⟩ else memRead m b := by
  rw [memWrite_in ha hv]
  by_cases hb : 0 ≤ b ∧ b ≤ 99
  · rw [memRead_in hb, memRead_in hb, memLookup_memStore hm]
    by_cases e : b = a
    · simp [e]
    · rw [if_neg e, if_neg (by omega)]
  · rw [memRead_out hb, memRead_out hb, if_neg (by rintro rfl; exact hb ha)]

/-! ### The guarded register writes -/

theorem State.writeAcc_in {s : State} {v : Int} (h : 0 ≤ v ∧ v ≤ 999) :
    s.writeAcc v = s.setAcc ⟨v.toNat, by omega⟩ := dif_pos h

theorem State.writeAcc_out {s : State} {v : Int} (h : ¬ (0 ≤ v ∧ v ≤ 999)) : s.writeAcc v = s := dif_neg h

/-- The accumulator after `WriteAcc(v)`, as a number (R14). -/
theorem State.writeAcc_acc (s : State) (v : Int) :
    ((s.writeAcc v).acc.val : Int) = if 0 ≤ v ∧ v ≤ 999 then v else (s.acc.val : Int) := by
  by_cases h : 0 ≤ v ∧ v ≤ 999
  · rw [State.writeAcc_in h, if_pos h]; simp only [State.setAcc_acc]; omega
  · rw [State.writeAcc_out h, if_neg h]

@[simp] theorem State.writeAcc_mem (s : State) (v : Int) : (s.writeAcc v).mem = s.mem := by
  unfold State.writeAcc; split <;> rfl
@[simp] theorem State.writeAcc_pc (s : State) (v : Int) : (s.writeAcc v).pc = s.pc := by
  unfold State.writeAcc; split <;> rfl
@[simp] theorem State.writeAcc_inq (s : State) (v : Int) : (s.writeAcc v).inq = s.inq := by
  unfold State.writeAcc; split <;> rfl
@[simp] theorem State.writeAcc_outq (s : State) (v : Int) : (s.writeAcc v).outq = s.outq := by
  unfold State.writeAcc; split <;> rfl
@[simp] theorem State.writeAcc_halted (s : State) (v : Int) : (s.writeAcc v).halted = s.halted := by
  unfold State.writeAcc; split <;> rfl

theorem State.writePC_in {s : State} {v : Int} (h : 0 ≤ v ∧ v ≤ 99) :
    s.writePC v = s.setPc ⟨v.toNat, by omega⟩ := dif_pos h

theorem State.writePC_out {s : State} {v : Int} (h : ¬ (0 ≤ v ∧ v ≤ 99)) : s.writePC v = s := dif_neg h

/-- The program counter after `WritePC(v)`, as a number (R17). -/
theorem State.writePC_pc (s : State) (v : Int) :
    ((s.writePC v).pc.val : Int) = if 0 ≤ v ∧ v ≤ 99 then v else (s.pc.val : Int) := by
  by_cases h : 0 ≤ v ∧ v ≤ 99
  · rw [State.writePC_in h, if_pos h]; simp only [State.setPc_pc]; omega
  · rw [State.writePC_out h, if_neg h]

@[simp] theorem State.writePC_mem (s : State) (v : Int) : (s.writePC v).mem = s.mem := by
  unfold State.writePC; split <;> rfl
@[simp] theorem State.writePC_acc (s : State) (v : Int) : (s.writePC v).acc = s.acc := by
  unfold State.writePC; split <;> rfl
@[simp] theorem State.writePC_inq (s : State) (v : Int) : (s.writePC v).inq = s.inq := by
  unfold State.writePC; split <;> rfl
@[simp] theorem State.writePC_outq (s : State) (v : Int) : (s.writePC v).outq = s.outq := by
  unfold State.writePC; split <;> rfl
@[simp] theorem State.writePC_halted (s : State) (v : Int) : (s.writePC v).halted = s.halted := by
  unfold State.writePC; split <;> rfl

/-! ### The queues and the halt state -/

@[simp] theorem State.dropInput_mem (s : State) : s.dropInput.mem = s.mem := by unfold State.dropInput; split <;> rfl
@[simp] theorem State.dropInput_acc (s : State) : s.dropInput.acc = s.acc := by unfold State.dropInput; split <;> rfl
@[simp] theorem State.dropInput_pc (s : State) : s.dropInput.pc = s.pc := by unfold State.dropInput; split <;> rfl
@[simp] theorem State.dropInput_inq (s : State) : s.dropInput.inq = s.inq.tail := by
  unfold State.dropInput; split <;> next h => simp [h]
@[simp] theorem State.dropInput_outq (s : State) : s.dropInput.outq = s.outq := by unfold State.dropInput; split <;> rfl
@[simp] theorem State.dropInput_halted (s : State) : s.dropInput.halted = s.halted := by
  unfold State.dropInput; split <;> rfl

/-- What `DequeueInput()` returns (R20). -/
theorem State.inputFront_eq (s : State) : s.inputFront = s.inq.head?.getD 0 := by
  unfold State.inputFront; split <;> next h => simp [h]

@[simp] theorem State.enqueueOutput_mem (s : State) (v : Cell) : (s.enqueueOutput v).mem = s.mem := rfl
@[simp] theorem State.enqueueOutput_acc (s : State) (v : Cell) : (s.enqueueOutput v).acc = s.acc := rfl
@[simp] theorem State.enqueueOutput_pc (s : State) (v : Cell) : (s.enqueueOutput v).pc = s.pc := rfl
@[simp] theorem State.enqueueOutput_inq (s : State) (v : Cell) : (s.enqueueOutput v).inq = s.inq := rfl
@[simp] theorem State.enqueueOutput_outq (s : State) (v : Cell) : (s.enqueueOutput v).outq = s.outq ++ [v] := rfl
@[simp] theorem State.enqueueOutput_halted (s : State) (v : Cell) : (s.enqueueOutput v).halted = s.halted := rfl

@[simp] theorem State.halt_mem (s : State) : s.halt.mem = s.mem := rfl
@[simp] theorem State.halt_acc (s : State) : s.halt.acc = s.acc := rfl
@[simp] theorem State.halt_pc (s : State) : s.halt.pc = s.pc := rfl
@[simp] theorem State.halt_inq (s : State) : s.halt.inq = s.inq := rfl
@[simp] theorem State.halt_outq (s : State) : s.halt.outq = s.outq := rfl
@[simp] theorem State.halt_halted (s : State) : s.halt.halted = true := rfl

/-! ### The fetch -/

/-- The word fetched and the state it is executed in (R91). -/
theorem fetch_eq (s : State) : fetch s = (s.fetchWord, s.advance) := rfl

@[simp] theorem State.advance_mem (s : State) : s.advance.mem = s.mem := State.writePC_mem s ((s.pc.val : Int) + 1)
@[simp] theorem State.advance_acc (s : State) : s.advance.acc = s.acc := State.writePC_acc s ((s.pc.val : Int) + 1)
@[simp] theorem State.advance_inq (s : State) : s.advance.inq = s.inq := State.writePC_inq s ((s.pc.val : Int) + 1)
@[simp] theorem State.advance_outq (s : State) : s.advance.outq = s.outq := State.writePC_outq s ((s.pc.val : Int) + 1)
@[simp] theorem State.advance_halted (s : State) : s.advance.halted = s.halted := State.writePC_halted s ((s.pc.val : Int) + 1)

/-- The fetch's advance (R91): one further, or 99 again at 99. -/
theorem State.advance_pc (s : State) : s.advance.pc.val = if s.pc.val ≤ 98 then s.pc.val + 1 else 99 := by
  have hlt := s.pc.isLt
  unfold State.advance
  by_cases h : s.pc.val ≤ 98
  · rw [State.writePC_in (by omega), if_pos h, State.setPc_pc]; simp only; omega
  · rw [State.writePC_out (by omega), if_neg h]; omega

end Sys2Proof.Machine
end

