-- ==== Sys2Proof/Laws/Exec.lean ====
section
/-! SUPPORT. What executing an instruction and what a step are, once. -/

namespace Sys2Proof.Machine

/-- Executing the instruction a word's fields name is the dispatch of R93 on those fields. -/
theorem exec_instrOfFields (k : Fin 10) (n : Nat) (s : State) : exec (instrOfFields k n) s = execute k n s := by
  fin_cases k <;> rfl

/-- A DAT word executes as the instruction its number spells (R66). -/
theorem exec_dat_of_cell (w : Cell) (s : State) : exec (.dat w.val) s = exec (decodeCell w) s := by
  rw [decodeCell, exec_instrOfFields]
  exact dif_pos w.isLt

theorem step_halted {s : State} (h : s.halted = true) : step s = .next s := if_pos h

theorem step_running {s : State} (h : s.halted = false) :
    step s = execute (opcodeOf s.fetchWord) (operandOf s.fetchWord) s.advance := by
  unfold step
  rw [if_neg (by simp [h]), fetch_eq, decodeCell, exec_instrOfFields]

/-- The ten cases of the execute phase, each with its next state (R93): no case is a fault or a refusal. -/
theorem execute_cases (k : Fin 10) (n : Nat) (s : State) :
    (k = 0 ∧ execute k n s = .next s.halt) ∨
    (k = 1 ∧ execute k n s = .next (s.writeAcc ((s.acc.val : Int) + ((dataCell n s).val : Int)))) ∨
    (k = 2 ∧ execute k n s = .next (s.writeAcc ((s.acc.val : Int) - ((dataCell n s).val : Int)))) ∨
    (k = 3 ∧ execute k n s = .next (s.setMem (memWrite s.mem (effectiveAddress n) ((s.acc.val : Int))))) ∨
    (k = 4 ∧ execute k n s = .next (s.writeAcc (((dataCell n s).val : Int)))) ∨
    (k = 5 ∧ execute k n s = .next (s.writePC (branchTarget n))) ∨
    (k = 6 ∧ execute k n s = .next (if accIsZero s then s.writePC (branchTarget n) else s)) ∨
    (k = 7 ∧ execute k n s = .next (s.dropInput.writeAcc s.inputFront)) ∨
    (k = 8 ∧ execute k n s = .next (s.enqueueOutput s.acc)) ∨
    (k = 9 ∧ execute k n s = .next s) := by
  fin_cases k <;> simp [execute, execHlt, execAdd, execSub, execSta, execLda, execBra, execBrz, execInp, execOut,
    execUnassigned9]

end Sys2Proof.Machine
end

