-- ==== Sys2Proof/Laws/Load.lean ====
section
/-! SUPPORT. What the image writes of `load` do. -/

namespace Sys2Proof.Machine

@[simp] theorem load_acc (p d : List Int) : (load p d).acc = 0 := rfl
@[simp] theorem load_pc (p d : List Int) : (load p d).pc = 0 := rfl
@[simp] theorem load_inq (p d : List Int) : (load p d).inq = d := rfl
@[simp] theorem load_outq (p d : List Int) : (load p d).outq = [] := rfl
@[simp] theorem load_halted (p d : List Int) : (load p d).halted = false := rfl

theorem installImage_wf : ∀ (p : List Int) (i : Nat) (m : Memory), m.wf = true → (installImage i p m).wf = true
  | [], _, _, h => h
  | _ :: rest, i, _, h => installImage_wf rest (i + 1) _ (memWrite_wf h)

/-- The image writes from address `i` on leave the addresses below `i` alone. -/
theorem memRead_installImage_below {b : Int} : ∀ (p : List Int) (i : Nat) (m : Memory), m.wf = true → b < (i : Int) →
    memRead (installImage i p m) b = memRead m b
  | [], _, _, _, _ => rfl
  | v :: rest, i, m, hm, hb => by
    rw [installImage, memRead_installImage_below rest (i + 1) _ (memWrite_wf hm) (by omega)]
    by_cases hv : 0 ≤ v ∧ v ≤ 999
    · by_cases ha : 0 ≤ (i : Int) ∧ (i : Int) ≤ 99
      · rw [memRead_memWrite hm ha hv, if_neg (by omega)]
      · rw [memWrite_badAddress ha]
    · rw [memWrite_badValue hv]

end Sys2Proof.Machine
end

