-- ==== Sys2Proof/Laws/PerInstr.lean ====
section
/-! SUPPORT. The per-instruction family EncodeInRange: a well-formed instruction's word is in [0, 999] (R78). -/

namespace Sys2Proof.Laws.EncodeInRange

def Statement (i : Instr) : Prop := i.wellFormed = true → encode i ≤ 999

theorem hlt (n : Nat) : Statement (.hlt n) := by
  intro h; simp only [Instr.wellFormed, decide_eq_true_eq] at h; simp only [encode]; omega
theorem add (n : Nat) : Statement (.add n) := by
  intro h; simp only [Instr.wellFormed, decide_eq_true_eq] at h; simp only [encode]; omega
theorem sub (n : Nat) : Statement (.sub n) := by
  intro h; simp only [Instr.wellFormed, decide_eq_true_eq] at h; simp only [encode]; omega
theorem sta (n : Nat) : Statement (.sta n) := by
  intro h; simp only [Instr.wellFormed, decide_eq_true_eq] at h; simp only [encode]; omega
theorem lda (n : Nat) : Statement (.lda n) := by
  intro h; simp only [Instr.wellFormed, decide_eq_true_eq] at h; simp only [encode]; omega
theorem bra (n : Nat) : Statement (.bra n) := by
  intro h; simp only [Instr.wellFormed, decide_eq_true_eq] at h; simp only [encode]; omega
theorem brz (n : Nat) : Statement (.brz n) := by
  intro h; simp only [Instr.wellFormed, decide_eq_true_eq] at h; simp only [encode]; omega
theorem inp (n : Nat) : Statement (.inp n) := by
  intro h; simp only [Instr.wellFormed, decide_eq_true_eq] at h; simp only [encode]; omega
theorem out (n : Nat) : Statement (.out n) := by
  intro h; simp only [Instr.wellFormed, decide_eq_true_eq] at h; simp only [encode]; omega
theorem unassigned9 (n : Nat) : Statement (.unassigned9 n) := by
  intro h; simp only [Instr.wellFormed, decide_eq_true_eq] at h; simp only [encode]; omega
theorem dat (v : Nat) : Statement (.dat v) := by
  intro h; simp only [Instr.wellFormed, decide_eq_true_eq] at h; simp only [encode]; omega

end Sys2Proof.Laws.EncodeInRange
end

