-- ==== Sys2Proof/Tests/Slice0.lean ====
section
/-! SUPPORT. Tests with expected results from the spec's vectors (95_test_vectors.md, named S1 to S9 and V1 to V14), a smoke
test of WellFormed, and for each statement with hypotheses a concrete case that meets them. -/

namespace Sys2Proof.Tests

open Sys2Proof Sys2Proof.Machine

/-- The reset state with another program counter and accumulator. -/
def start (pc : Addr) (acc : Cell) : State := (State.reset.setPc pc).setAcc acc

/-- The state with one cell written. -/
def put (a v : Int) (s : State) : State := s.setMem (memWrite s.mem a v)

/-- The next state, if the outcome is one. -/
def nextOf : Host.Outcome State Fault Refusal → Option State
  | .next t => some t
  | .fault _ => none
  | .refused _ => none

/-- The state after one step. -/
def after (s : State) : Option State := nextOf (step s)

/-! ### WellFormed refuses an ill-formed term for each check (R76) -/

theorem test_wellFormed_hlt : (Instr.hlt 100).wellFormed = false := by decide
theorem test_wellFormed_add : (Instr.add 100).wellFormed = false := by decide
theorem test_wellFormed_sub : (Instr.sub 100).wellFormed = false := by decide
theorem test_wellFormed_sta : (Instr.sta 100).wellFormed = false := by decide
theorem test_wellFormed_lda : (Instr.lda 100).wellFormed = false := by decide
theorem test_wellFormed_bra : (Instr.bra 100).wellFormed = false := by decide
theorem test_wellFormed_brz : (Instr.brz 100).wellFormed = false := by decide
theorem test_wellFormed_inp : (Instr.inp 100).wellFormed = false := by decide
theorem test_wellFormed_out : (Instr.out 100).wellFormed = false := by decide
theorem test_wellFormed_unassigned9 : (Instr.unassigned9 100).wellFormed = false := by decide
theorem test_wellFormed_dat : (Instr.dat 1000).wellFormed = false := by decide

/-! ### Decoding of words written out digit by digit (R60, R64, V1) -/

theorem test_decode_hlt : decode 042 = .ok (.hlt 42) := by decide
theorem test_decode_add : decode 199 = .ok (.add 99) := by decide
theorem test_decode_sub : decode 250 = .ok (.sub 50) := by decide
theorem test_decode_sta : decode 305 = .ok (.sta 5) := by decide
theorem test_decode_lda : decode 407 = .ok (.lda 7) := by decide
theorem test_decode_bra : decode 599 = .ok (.bra 99) := by decide
theorem test_decode_brz : decode 600 = .ok (.brz 0) := by decide
theorem test_decode_inp : decode 742 = .ok (.inp 42) := by decide
theorem test_decode_out : decode 899 = .ok (.out 99) := by decide
theorem test_decode_unassigned9 : decode 999 = .ok (.unassigned9 99) := by decide
theorem test_decode_notAWord : decode 1000 = .error (.notAWord 1000) := by decide
theorem test_encode_dat : encode (.dat 305) = 305 ∧ encode (.sta 5) = 305 := by decide
theorem test_decodeTableWord : decodeTableWord 16 900 = some (.unassigned9 0) := by decide

/-! ### Memory and the guarded writes (S1) -/

theorem test_memRead_outside : memRead [(99, 7)] 100 = 0 ∧ memRead [(99, 7)] (-1) = 0 := by decide
theorem test_memWrite_outside : memWrite [(99, 7)] 100 5 = [(99, 7)] ∧ memWrite [(99, 7)] (-1) 5 = [(99, 7)] := by decide
theorem test_memWrite_zero_unlists : memWrite [(3, 5), (99, 7)] 99 0 = [(3, 5)] := by decide
theorem test_writeAcc_rejects : ((start 0 7).writeAcc 1000).acc = 7 ∧ ((start 0 7).writeAcc (-1)).acc = 7 := by decide
theorem test_writePC_rejects : ((start 7 0).writePC 100).pc = 7 ∧ ((start 7 0).writePC 99).pc = 99 := by decide

/-! ### The instructions (V3 to V12) -/

theorem test_hlt_operand_ignored :
    (after (put 0 042 (start 0 7))).map (fun t => (t.halted, t.pc, t.acc)) = some (true, 1, 7) := by decide
theorem test_hlt_at_99 : (after (start 99 0)).map (fun t => (t.halted, t.pc)) = some (true, 99) := by decide
theorem test_add_rejected :
    (after (put 50 5 (put 0 150 (start 0 998)))).map (fun t => (t.acc, t.pc)) = some (998, 1) := by decide
theorem test_add_own_cell :
    (after (put 5 105 (start 5 1))).map (fun t => (t.acc, t.pc)) = some (106, 6) := by decide
theorem test_sub_rejected :
    (after (put 6 5 (put 1 206 (start 1 3)))).map (fun t => (t.acc, t.pc)) = some (3, 2) := by decide
theorem test_sub_to_zero : (after (put 50 999 (put 0 250 (start 0 999)))).map (·.acc) = some 0 := by decide
theorem test_sta_over_itself :
    (after (put 1 301 (start 1 800))).map (fun t => (t.mem, t.acc, t.pc)) = some ([(1, 800)], 800, 2) := by decide
theorem test_sta_zero : (after (put 0 300 (start 0 0))).map (·.mem) = some [] := by decide
theorem test_lda_own_cell : (after (put 7 407 (start 7 9))).map (fun t => (t.acc, t.pc)) = some (407, 8) := by decide
theorem test_bra_from_99 : (after (put 99 505 (start 99 0))).map (·.pc) = some 5 := by decide
theorem test_brz_taken : (after (put 3 608 (start 3 0))).map (·.pc) = some 8 := by decide
theorem test_brz_not_taken_at_99 : (after (put 99 605 (start 99 1))).map (·.pc) = some 99 := by decide
theorem test_inp_bad_value_consumed :
    (after ((put 0 742 (start 0 9)).setInq [1000, 5])).map (fun t => (t.acc, t.inq)) = some (9, [5]) := by decide
theorem test_inp_empty : (after (put 0 700 (start 0 9))).map (fun t => (t.acc, t.inq)) = some (0, []) := by decide
theorem test_out_appends :
    (after ((put 0 899 (start 0 999)).setOutq [1, 2])).map (·.outq) = some [1, 2, 999] := by decide
theorem test_unassigned9_at_99 : after (put 99 900 (start 99 4)) = some (put 99 900 (start 99 4)) := by decide
theorem test_dat_as_lda : (nextOf (exec (.dat 407) (put 7 3 (start 0 9)))).map (·.acc) = some 3 := by decide
theorem test_step_halted : after ((start 4 0).setHalted true) = some ((start 4 0).setHalted true) := by decide
theorem test_withFetchWord :
    (after (State.reset.withFetchWord 16 599)).map (fun t => (t.pc, t.halted)) = some (99, false) := by decide

/-! ### Load and the host (V13, S2) -/

theorem test_load_drops_bad_elements : (load [405, 1000, -3, 800] []).mem = [(0, 405), (3, 800)] := by decide
theorem test_load_input_unchecked : (load [] [-1, 1000]).inq = [-1, 1000] := by decide
theorem test_hostRead_memory_outside : hostRead (some (load [1] [])) (.memory (-1)) = .ok (.number 0) := by decide

/-! ### The assembler (V14, S8) -/

theorem test_assemble_leading_zero : assemble "LDA 05" = .ok 405 := by decide
theorem test_assemble_no_operand : assemble "BRA" = .ok 500 := by decide
theorem test_assemble_lower_case : assemble "lda 5" = .error ⟨.unknownMnemonic, "lda 5".toList⟩ := by decide
theorem test_assemble_out_of_range : assemble "ADD 100" = .error ⟨.operandOutOfRange, "ADD 100".toList⟩ := by decide
theorem test_assemble_two_spaces : assemble "LDA  5" = .error ⟨.malformedLine, "LDA  5".toList⟩ := by decide
theorem test_assemble_trailing_blank : assemble "LDA 5 " = .error ⟨.malformedLine, "LDA 5 ".toList⟩ := by decide
theorem test_assemble_letter_after_digit : assemble "LDA 5x" = .error ⟨.malformedLine, "LDA 5x".toList⟩ := by decide
theorem test_assemble_two_operands : assemble "LDA 5 6" = .error ⟨.malformedLine, "LDA 5 6".toList⟩ := by decide
theorem test_disassemble_opcode9 : disassemble 905 = .ok "DAT 905" := by decide
theorem test_disassemble_small : disassemble 42 = .ok "HLT 42" := by decide

/-! ### Witnesses: a concrete case for the hypotheses of each statement that has some -/

theorem witness_WordsOfEachRowDecodeToIt : (99 : Nat) ≤ 99 ∧ decode 999 = .ok (.unassigned9 99) := by decide
theorem witness_EveryWordDecodesAndNothingElse : 999 < 1000 := by decide
theorem witness_DecodeAndEncodeAgree : (Instr.add 99).wellFormed = true ∧ (Instr.add 99).isDat = false := by decide
theorem witness_AssembleGivesTheWord : ("OUT", 8) ∈ nineMnemonics ∧ 99 ≤ 99 ∧ 999 ≤ 999 := by decide
theorem witness_AssembleGivesTheWord_digits :
    ['0', '9', '9'] ≠ [] ∧ ['0', '9', '9'].all Char.isDigit = true ∧ readDecimal ['0', '9', '9'] ≤ 99 := by decide
theorem witness_AssembleGivesTheWord_literal :
    ['9', '9', '9'] ≠ [] ∧ ['9', '9', '9'].all Char.isDigit = true ∧ readDecimal ['9', '9', '9'] ≤ 999 := by decide
theorem witness_OmittedOperandIsZero : ("HLT", 0) ∈ nineMnemonics := by decide
theorem witness_UnknownMnemonicFails :
    lineShape "FOO 1".toList = some ("FOO".toList, some 1) ∧
    (∀ p ∈ nineMnemonics, "FOO".toList ≠ p.1.toList) ∧ "FOO".toList ≠ "DAT".toList := by decide
theorem witness_OperandOutOfRangeFails : ("ADD", 1) ∈ nineMnemonics ∧ 99 < 100 ∧ 999 < 1000 := by decide
theorem witness_OperandOutOfRangeFails_digits :
    ['0', '1', '0', '0'] ≠ [] ∧ ['0', '1', '0', '0'].all Char.isDigit = true ∧
    99 < readDecimal ['0', '1', '0', '0'] := by decide
theorem witness_OperandOutOfRangeFails_literal :
    ['1', '0', '0', '0'] ≠ [] ∧ ['1', '0', '0', '0'].all Char.isDigit = true ∧
    999 < readDecimal ['1', '0', '0', '0'] := by decide
theorem witness_MalformedLinesFail_leading_blank : ' '.isWhitespace = true := by decide
theorem witness_MalformedLinesFail_name : "LDA".toList ≠ [] ∧ ∀ c ∈ "LDA".toList, c.isWhitespace = false := by
  have h : "LDA".toList = ['L', 'D', 'A'] := by decide
  rw [h]; simp [Char.isWhitespace]
theorem witness_MalformedLinesFail_no_digit_after_digits :
    ['5'].all Char.isDigit = true ∧ 'x'.isDigit = false ∧ ' '.isDigit = false := by decide
theorem witness_MalformedLinesFail_tab : '\t'.isWhitespace = true ∧ '\t' ≠ ' ' := by decide
theorem witness_DisassembleGivesMnemonicAndOperand : ("BRZ", 6) ∈ nineMnemonics ∧ 99 ≤ 99 := by decide
theorem witness_DisassembleOfOtherNumbers : 99 ≤ 99 ∧ 999 < 1000 := by decide
theorem witness_AssembleDisassembleRoundTrip : ("LDA", 4) ∈ nineMnemonics ∧ 7 ≤ 99 ∧ 999 ≤ 999 := by decide
theorem witness_AssembledProgramIsOneWordPerLine :
    assemble "DAT 999" = .ok 999 ∧ assembleProgram ["LDA 5", "DAT 999"] = .ok [405, 999] ∧ 99 ≤ 99 := by decide
theorem witness_AssembledProgramIsOneWordPerLine_lines :
    (assembleProgram ["LDA 5", "DAT 999"]).isOk = true ∧ assemble "LDA 5" = .ok 405 := by decide
theorem witness_ProgramWithAFailingLineFails :
    assemble "HLT" = .ok 0 ∧ assemble "FOO 1" = .error ⟨.unknownMnemonic, "FOO 1".toList⟩ := by decide
theorem witness_MemReadIsBoundsChecked_in : (0 : Int) ≤ 99 ∧ (99 : Int) ≤ 99 := by decide
theorem witness_MemReadIsBoundsChecked_out : ¬ ((0 : Int) ≤ 100 ∧ (100 : Int) ≤ 99) := by decide
theorem witness_MemWriteChecksAddressAndValue_in :
    Memory.wf [(99, 7)] = true ∧ (0 : Int) ≤ 99 ∧ (99 : Int) ≤ 99 ∧ (0 : Int) ≤ 999 ∧ (999 : Int) ≤ 999 := by decide
theorem witness_MemWriteChecksAddressAndValue_out :
    Memory.wf [(99, 7)] = true ∧ ¬ ((0 : Int) ≤ 99 ∧ (99 : Int) ≤ 99 ∧ (0 : Int) ≤ 1000 ∧ (1000 : Int) ≤ 999) := by decide
theorem witness_CanonicalMemoriesAreEqualWhenTheyReadEqual :
    ∃ m : Memory, m ≠ [] ∧ m.wf = true ∧ ∀ a : Int, memRead m a = memRead m a :=
  ⟨[(99, 999)], by decide, by decide, fun _ => rfl⟩

/-- A Running state at 99 over STA 5, with accumulator 7. -/
def storing : State := put 99 305 (start 99 7)

theorem witness_StepKeepsMemoryCanonical : storing.mem.wf = true ∧
    (after storing).map (·.mem) = some [(5, 7), (99, 305)] := by decide
theorem witness_LoadedMachinesKeepMemoryCanonical : ReachesIn 0 (load [305, -1] []) (load [305, -1] []) := rfl
theorem witness_HltHaltsAndWritesNothingElse :
    (start 0 7).halted = false ∧ (nextOf (exec (.dat 99) (start 0 7))).map (·.halted) = some true := by decide
theorem witness_StaStoresTheAccumulator : 99 ≤ 99 ∧ storing.mem.wf = true := by decide
theorem witness_StaStoresTheAccumulator_other_cells : (0 : Int) ≠ effectiveAddress 99 := by decide
theorem witness_BraSetsTheProgramCounter : 99 ≤ 99 := by decide
theorem witness_BrzBranchesOnZeroAccumulator : 99 ≤ 99 := by decide
theorem witness_InpTakesTheFrontOfTheInput_empty : (start 0 9).inq = [] := by decide
theorem witness_InpTakesTheFrontOfTheInput_value : ((start 0 9).setInq [999]).inq = 999 :: [] := by decide
theorem witness_OpcodeNineIsANoOperation :
    (put 0 900 (start 0 7)).halted = false ∧ 900 ≤ (memRead (put 0 900 (start 0 7)).mem 0).val := by decide
theorem witness_SubUndoesAnAcceptedAdd :
    (put 50 499 (start 0 500)).acc.val + (memRead (put 50 499 (start 0 500)).mem 50).val ≤ 999 := by decide
theorem witness_SubOfOwnStoredCopyGivesZero : 99 ≤ 99 ∧ storing.mem.wf = true := by decide
theorem witness_FetchReadsAndAdvances : (start 98 0).pc.val ≤ 98 ∧ (start 99 0).pc.val = 99 := by decide
theorem witness_StepRunsTheDecodedInstruction :
    storing.halted = false ∧ decode (memRead storing.mem (storing.pc.val : Int)).val = .ok (.sta 5) := by decide
theorem witness_HaltedStepAndRunDoNothing : ((start 4 0).setHalted true).halted = true := by decide
theorem witness_OnlyHltHaltsAndOnlyLoadResumes_halts :
    (start 3 7).halted = false ∧ (memRead (start 3 7).mem 3).val / 100 = 0 ∧
    after (start 3 7) = some ((start 4 7).setHalted true) := by decide
theorem witness_OnlyHltHaltsAndOnlyLoadResumes_runs :
    storing.halted = false ∧ (memRead storing.mem 99).val / 100 ≠ 0 ∧ (after storing).isSome = true := by decide
theorem witness_OnlyHltHaltsAndOnlyLoadResumes_resumes :
    ((start 4 0).setHalted true).halted = true ∧
    (nextOf (hostStep (some ((start 4 0).setHalted true)) (.load [] []))).map (·.halted) = some false := by decide
theorem witness_ProgramCounterAfterAStep : storing.halted = false ∧ (after storing).map (·.pc) = some 99 := by decide
theorem witness_OnlyStaAndLoadChangeMemory : storing.mem.wf = true ∧
    (nextOf (hostStep (some storing) .step)).map (fun t => decide (memRead t.mem 5 ≠ memRead storing.mem 5)) = some true := by
  decide
theorem witness_OnlyAddSubLdaInpChangeTheAccumulator :
    (after (put 7 407 (start 7 9))).map (fun t => decide (t.acc ≠ (9 : Cell))) = some true := by decide
theorem witness_QueuesChangeOnlyByInpAndOut_inp :
    ((put 0 700 (start 0 9)).setInq [1, 2]).halted = false ∧
    (after ((put 0 700 (start 0 9)).setInq [1, 2])).map (·.inq) = some [2] := by decide
theorem witness_QueuesChangeOnlyByInpAndOut_out :
    (put 0 800 (start 0 9)).halted = false ∧ (after (put 0 800 (start 0 9))).map (·.outq) = some [9] := by decide
theorem witness_RunsOnlyAppendOutputAndConsumeInput :
    ReachesIn 1 ((start 4 0).setHalted true) ((start 4 0).setHalted true) ∧
    ((start 4 0).setHalted true).halted = true := ⟨rfl, rfl⟩
theorem witness_OutputQueueIsNeverRead : (after (put 0 800 (start 0 9))).isSome = true := by decide
theorem witness_StoreIsSeenByTheNextFetch :
    storing.halted = false ∧ storing.mem.wf = true ∧ (memRead storing.mem (storing.pc.val : Int)).val / 100 = 3 ∧
    (after storing).isSome = true := by decide
theorem witness_RunEndsHaltedAndInOneState : RunsTo ((start 4 0).setHalted true) ((start 4 0).setHalted true) :=
  .halted rfl
theorem witness_BraToItselfHangs :
    (put 99 599 (start 99 0)).halted = false ∧
    (memRead (put 99 599 (start 99 0)).mem 99).val = 500 + (put 99 599 (start 99 0)).pc.val := by decide
theorem witness_BraToItselfHangs_reaches : ReachesIn 0 (put 99 599 (start 99 0)) (put 99 599 (start 99 0)) := rfl
theorem witness_FallingOffTheEndNeverHalts :
    storing.halted = false ∧ storing.mem.wf = true ∧ storing.pc.val = 99 ∧
    (memRead storing.mem 99).val / 100 ≠ 0 ∧ (memRead storing.mem 99).val / 100 ≠ 5 ∧
    ((memRead storing.mem 99).val / 100 = 6 → storing.acc.val ≠ 0) ∧ (memRead storing.mem 99).val ≠ 399 := by decide
theorem witness_PlacedWordIsRunNext :
    State.reset.mem.wf = true ∧ decodeTableWord 16 405 = some (.lda 5) ∧ (1 : Int) ≠ (State.reset.pc.val : Int) := by decide

end Sys2Proof.Tests
end

section
/-! The memory primitives (20_memory.md, R41 and R42): the bounds-checked read and the doubly checked write. -/

namespace Sys2Proof.Machine

/-- A bad address or a bad value drops the whole write (R42). -/
theorem memWrite_dropped {m : Memory} {a v : Int} (h : ¬ (0 ≤ a ∧ a ≤ 99 ∧ 0 ≤ v ∧ v ≤ 999)) :
    memWrite m a v = m := by
  by_cases ha : 0 ≤ a ∧ a ≤ 99
  · exact memWrite_badValue fun hv => h ⟨ha.1, ha.2, hv⟩
  · exact memWrite_badAddress ha

/-- What a read gives after an accepted write, as a number (R42). -/
theorem memRead_memWrite_val {m : Memory} {a b v : Int} (hm : m.wf = true) (ha : 0 ≤ a ∧ a ≤ 99)
    (hv : 0 ≤ v ∧ v ≤ 999) :
    ((memRead (memWrite m a v) b).val : Int) = if b = a then v else ((memRead m b).val : Int) := by
  rw [memRead_memWrite hm ha hv]
  split
  · exact Int.toNat_of_nonneg hv.1
  · rfl

/-- Settles O15: the two branches of the bounds check. -/
theorem memReadIsBoundsChecked : Obligations.MemReadIsBoundsChecked :=
  fun _ _ => ⟨memRead_in, memRead_out⟩

/-- Settles O16: an accepted write is a store of the one cell, and either failing check drops the write. -/
theorem memWriteChecksAddressAndValue : Obligations.MemWriteChecksAddressAndValue := by
  intro m a v hm
  constructor
  · rintro ⟨ha0, ha99, hv⟩ b
    exact memRead_memWrite_val hm ⟨ha0, ha99⟩ hv
  · exact memWrite_dropped

end Sys2Proof.Machine
end

section
/-! The encoding of words (30_encoding.md): the fields of a word (R61), the text of a word (R79), and what the assembler and
a load of its words give (R78). -/

namespace Sys2Proof.Machine

/-! ### The fields of a word -/

/-- Settles O1: the split into fields, the range of the operand, and the rule's examples as words `k * 100 + n`. -/
theorem wordSplitsIntoOpcodeAndOperand : Obligations.WordSplitsIntoOpcodeAndOperand := by
  refine ⟨fun w => ?_, decode_fields (k := 4) (n := 5) (by decide) (by decide),
    decode_fields (k := 0) (n := 0) (by decide) (by decide), decode_fields (k := 9) (n := 99) (by decide) (by decide),
    decode_fields (k := 0) (n := 99) (by decide) (by decide)⟩
  have hrange : Config.IsAddress (operandOf w : Int) := ⟨Int.natCast_nonneg _, by exact_mod_cast operandOf_le w⟩
  exact ⟨opcodeOf_val w, rfl, (opcode_operand_split w).symm, Fin.is_le (opcodeOf w), hrange, hrange⟩

/-! ### The text of a word -/

/-- The word `k * 100 + n` prints as the text of the instruction of opcode `k` with operand `n` (R61, R79). -/
theorem disassemble_fields {k n : Nat} (hk : k < 10) (hn : n ≤ 99) :
    disassemble (k * 100 + n) = .ok (String.ofList (instrText (instrOfFields ⟨k, hk⟩ n))) := by
  simp only [disassemble, disassembleWord, decode_fields hk hn]

/-- The text of an instruction as a string: its mnemonic, a space and the printed number in decimal (R79). -/
theorem ofList_instrText (i : Instr) :
    String.ofList (instrText i) = String.ofList (mnemonicOf i) ++ " " ++ toString (printedOperand i) := by
  apply String.toList_injective
  simp [instrText]

/-- A mnemonic of R71 is that of its opcode's instruction, whose printed number is the operand (R64, R79). -/
theorem text_of_nineMnemonics {p : String × Nat} (hp : p ∈ nineMnemonics) (n : Nat) :
    ∃ hk : p.2 < 10, mnemonicOf (instrOfFields ⟨p.2, hk⟩ n) = p.1.toList ∧
      printedOperand (instrOfFields ⟨p.2, hk⟩ n) = n := by
  simp only [nineMnemonics, List.mem_cons, List.not_mem_nil, or_false] at hp
  rcases hp with rfl | rfl | rfl | rfl | rfl | rfl | rfl | rfl | rfl <;> exact ⟨by decide, rfl, rfl⟩

/-- Settles O11: each of the nine rows prints its own mnemonic, then a space and the operand. -/
theorem disassembleGivesMnemonicAndOperand : Obligations.DisassembleGivesMnemonicAndOperand := by
  intro p hp n hn
  obtain ⟨hk, hname, hnumber⟩ := text_of_nineMnemonics hp n
  rw [disassemble_fields hk hn, ofList_instrText, hname, hnumber, String.ofList_toList]

/-! ### The words of the assembler -/

/-- A well-formed instruction's word is in [0, 999], row by row (R78). -/
theorem encode_le_of_wellFormed {i : Instr} (h : i.wellFormed = true) : encode i ≤ 999 := by
  cases i with
  | hlt n => exact Laws.EncodeInRange.hlt n h
  | add n => exact Laws.EncodeInRange.add n h
  | sub n => exact Laws.EncodeInRange.sub n h
  | sta n => exact Laws.EncodeInRange.sta n h
  | lda n => exact Laws.EncodeInRange.lda n h
  | bra n => exact Laws.EncodeInRange.bra n h
  | brz n => exact Laws.EncodeInRange.brz n h
  | inp n => exact Laws.EncodeInRange.inp n h
  | out n => exact Laws.EncodeInRange.out n h
  | unassigned9 n => exact Laws.EncodeInRange.unassigned9 n h
  | dat v => exact Laws.EncodeInRange.dat v h

/-- A line gives a word exactly when its shape is right and its parts name a well-formed instruction, whose word it is
(R77 d). -/
theorem assembleLine_eq_ok {line : List Char} {w : Nat} :
    assembleLine line = .ok w ↔ ∃ name operand i, lineShape line = some (name, operand) ∧
      instrNamed name (operand.getD 0) = some i ∧ i.wellFormed = true ∧ encode i = w := by
  unfold assembleLine
  cases hshape : lineShape line with
  | none => simp
  | some parts =>
    obtain ⟨name, operand⟩ := parts
    cases hnamed : instrNamed name (operand.getD 0) with
    | none => simp [hnamed]
    | some i => by_cases hwf : i.wellFormed = true <;> simp [hnamed, hwf]

/-- What `assemble` answers is a number in [0, 999] (R78). -/
theorem assemble_le {line : String} {w : Nat} (h : assemble line = .ok w) : w ≤ 999 := by
  obtain ⟨_, _, i, _, _, hwf, rfl⟩ := assembleLine_eq_ok.mp h
  exact encode_le_of_wellFormed hwf

/-- The line assembles to the word, as the number that `load` takes. -/
def AssemblesTo (line : String) (word : Int) : Prop := ∃ n : Nat, assemble line = .ok n ∧ word = (n : Int)

theorem AssemblesTo.inRange {line : String} {word : Int} (h : AssemblesTo line word) : 0 ≤ word ∧ word ≤ 999 := by
  obtain ⟨n, hn, rfl⟩ := h
  have := assemble_le hn
  omega

/-- A program's words are the first line's and the rest's. -/
theorem assembleProgram_cons_eq_ok {line : String} {rest : List String} {words : List Int} :
    assembleProgram (line :: rest) = .ok words ↔
      ∃ word more, AssemblesTo line word ∧ assembleProgram rest = .ok more ∧ words = word :: more := by
  simp only [assembleProgram, AssemblesTo]
  cases assemble line with
  | error e => simp
  | ok n => cases assembleProgram rest <;> simp [eq_comm]

/-- A program gives these words exactly when each line gives its own (R78). -/
theorem assembleProgram_eq_ok {lines : List String} {words : List Int} :
    assembleProgram lines = .ok words ↔ List.Forall₂ AssemblesTo lines words := by
  induction lines generalizing words with
  | nil => simp [assembleProgram, eq_comm]
  | cons line rest ih => simp only [assembleProgram_cons_eq_ok, ih, List.forall₂_cons_left_iff]

/-- A program all of whose lines assemble gives words. -/
theorem assembleProgram_isOk {lines : List String} (h : ∀ line ∈ lines, ∃ w, assemble line = .ok w) :
    ∃ words, assembleProgram lines = .ok words := by
  induction lines with
  | nil => exact ⟨[], rfl⟩
  | cons line rest ih =>
    obtain ⟨⟨w, hw⟩, hrest⟩ := List.forall_mem_cons.mp h
    obtain ⟨more, hmore⟩ := ih hrest
    exact ⟨w :: more, assembleProgram_cons_eq_ok.mpr ⟨w, more, ⟨w, hw, rfl⟩, hmore, rfl⟩⟩

/-! ### The cells after a load -/

/-- The cell at address `i + j` after image writes from `i` on, when it held 0: the image's element `j` if that is a cell
value, else still 0 (R181). -/
theorem memRead_installImage {image : List Int} {i j : Nat} {m : Memory} (hm : m.wf = true) (hj : i + j ≤ 99)
    (hzero : memRead m ((i + j : Nat) : Int) = 0) :
    ((memRead (installImage i image m) ((i + j : Nat) : Int)).val : Int) =
      if 0 ≤ image.getD j 0 ∧ image.getD j 0 ≤ 999 then image.getD j 0 else 0 := by
  induction image generalizing i j m with
  | nil => rw [installImage, hzero]; simp
  | cons v rest ih =>
    have hi : 0 ≤ (i : Int) ∧ (i : Int) ≤ 99 := by omega
    cases j with
    | zero =>
      rw [Nat.add_zero] at hzero ⊢
      rw [installImage, memRead_installImage_below rest (i + 1) _ (memWrite_wf hm) (by omega), List.getD_cons_zero]
      split
      · next hv => rw [memRead_memWrite_val hm hi hv, if_pos rfl]
      · next hv => rw [memWrite_badValue hv, hzero]; rfl
    | succ j =>
      have hstill : memRead (memWrite m (i : Int) v) ((i + (j + 1) : Nat) : Int) = 0 := by
        by_cases hv : 0 ≤ v ∧ v ≤ 999
        · rw [memRead_memWrite hm hi hv, if_neg (by omega), hzero]
        · rw [memWrite_badValue hv, hzero]
      rw [← Nat.succ_add_eq_add_succ] at hj hstill ⊢
      exact ih (memWrite_wf hm) hj hstill

/-- After `load` each cell holds the image's element at its address if that is a cell value, else 0 (R180, R181). -/
theorem memRead_load (image input : List Int) {a : Nat} (ha : a ≤ 99) :
    ((memRead (load image input).mem (a : Int)).val : Int) =
      if 0 ≤ image.getD a 0 ∧ image.getD a 0 ≤ 999 then image.getD a 0 else 0 := by
  have h := memRead_installImage (image := image) (i := 0) (j := a) (m := []) rfl (by omega) (memRead_nil _)
  rwa [Nat.zero_add] at h

/-- The number at each place of an assembled program, and the 0 beyond its end, is in [0, 999] (R78). -/
theorem getD_inRange_of_assemblesTo {lines : List String} {words : List Int}
    (h : List.Forall₂ AssemblesTo lines words) (a : Nat) : 0 ≤ words.getD a 0 ∧ words.getD a 0 ≤ 999 := by
  induction h generalizing a with
  | nil => simp
  | cons hline _ ih =>
    cases a with
    | zero => exact hline.inRange
    | succ a => exact ih a

/-- Settles O14: the words are in range, there is one for each line, and so no image write of the load is dropped. -/
theorem assembledProgramIsOneWordPerLine : Obligations.AssembledProgramIsOneWordPerLine := by
  refine ⟨fun _ _ => assemble_le, fun _ => assembleProgram_isOk, fun lines words h => ?_⟩
  have hwords : List.Forall₂ AssemblesTo lines words := assembleProgram_eq_ok.mp h
  refine ⟨hwords, fun input a ha => ?_⟩
  rw [memRead_load words input ha, if_pos (getD_inRange_of_assemblesTo hwords a)]

end Sys2Proof.Machine
end

section
/-! The cycle (40_cycle.md): the fetch (R91). -/

namespace Sys2Proof.Machine

/-- Settles O36: the two branches of the advance, which writes the program counter alone. -/
theorem fetchReadsAndAdvances : Obligations.FetchReadsAndAdvances := by
  intro s
  rw [fetch_eq]
  refine ⟨rfl, fun hbelow => ?_, fun hlast => ?_,
    s.advance_mem, s.advance_acc, s.advance_inq, s.advance_outq, s.advance_halted⟩
  · exact s.advance_pc.trans (if_pos hbelow)
  · exact s.advance_pc.trans (if_neg (by omega))

end Sys2Proof.Machine
end

section
/-! HLT (41_halt.md, R100): what the execute phase does to the halt state, and which instructions halt. -/

namespace Sys2Proof.Machine

/-- The execute phase sets the halt state for opcode 0 and keeps it for every other opcode (R90, R93). -/
theorem execute_halted {k : Fin 10} {n : Nat} {s t : State} (h : execute k n s = .next t) :
    t.halted = (decide (k = 0) || s.halted) := by
  rcases execute_cases k n s with ⟨rfl, he⟩ | ⟨rfl, he⟩ | ⟨rfl, he⟩ | ⟨rfl, he⟩ | ⟨rfl, he⟩ | ⟨rfl, he⟩ | ⟨rfl, he⟩ |
    ⟨rfl, he⟩ | ⟨rfl, he⟩ | ⟨rfl, he⟩ <;>
  · obtain rfl := Host.Outcome.next.inj (he.symm.trans h)
    simp [apply_ite State.halted]

/-- Only opcode 0 turns a Running state into a Halted one (R90). -/
theorem opcode_eq_zero_of_halts {k : Fin 10} {n : Nat} {s t : State} (h : execute k n s = .next t)
    (hs : s.halted = false) (ht : t.halted = true) : k = 0 := by
  simpa [hs, ht] using execute_halted h

/-- An instruction is DAT or one of the ten rows of the opcode map (R64, R73). -/
theorem instr_dat_or_fields (i : Instr) : (∃ v, i = .dat v) ∨ ∃ k n, i = instrOfFields k n := by
  cases i with
  | hlt n => exact .inr ⟨0, n, rfl⟩
  | add n => exact .inr ⟨1, n, rfl⟩
  | sub n => exact .inr ⟨2, n, rfl⟩
  | sta n => exact .inr ⟨3, n, rfl⟩
  | lda n => exact .inr ⟨4, n, rfl⟩
  | bra n => exact .inr ⟨5, n, rfl⟩
  | brz n => exact .inr ⟨6, n, rfl⟩
  | inp n => exact .inr ⟨7, n, rfl⟩
  | out n => exact .inr ⟨8, n, rfl⟩
  | unassigned9 n => exact .inr ⟨9, n, rfl⟩
  | dat v => exact .inl ⟨v, rfl⟩

/-- A DAT literal that no cell can hold changes nothing (log entry 7). -/
theorem exec_dat_notAWord {v : Nat} (hv : ¬ v < 1000) (s : State) : exec (.dat v) s = .next s := dif_neg hv

/-- A DAT that halts is the word of a HLT, 0 to 99 (R66, R100). -/
theorem dat_le_of_halts {v : Nat} {s t : State} (h : exec (.dat v) s = .next t) (hs : s.halted = false)
    (ht : t.halted = true) : v ≤ 99 := by
  by_cases hv : v < 1000
  · rw [exec_dat_of_cell ⟨v, hv⟩, decodeCell, exec_instrOfFields] at h
    have hopcode : v / 100 = 0 := congrArg Fin.val (opcode_eq_zero_of_halts h hs ht)
    omega
  · obtain rfl := Host.Outcome.next.inj ((exec_dat_notAWord hv s).symm.trans h)
    simp [hs] at ht

/-- Settles O21: the halt writes one field, a step and a run from a Halted state do nothing, and opcode 0 alone halts. -/
theorem hltHaltsAndWritesNothingElse : Obligations.HltHaltsAndWritesNothingElse := by
  refine ⟨fun n hn => ?_, fun x s => ?_, fun i s t he hs ht => ?_⟩
  · simpa [instrOfFields] using decode_fields (k := 0) (by decide) hn
  · exact ⟨s.halt, rfl, s.halt_halted, s.halt_mem, s.halt_acc, s.halt_pc, s.halt_inq, s.halt_outq,
      step_halted s.halt_halted, .halted s.halt_halted⟩
  · obtain ⟨v, rfl⟩ | ⟨k, n, rfl⟩ := instr_dat_or_fields i
    · exact .inr ⟨v, dat_le_of_halts he hs ht, rfl⟩
    · rw [exec_instrOfFields] at he
      obtain rfl := opcode_eq_zero_of_halts he hs ht
      exact .inl ⟨n, rfl⟩

end Sys2Proof.Machine
end

section
/-! ADD and SUB (42_arith.md, R110 and R111): the accumulator's range check on an exact sum and on an exact difference. -/

namespace Sys2Proof.Machine

/-- ADD's next state: the exact sum, offered to the accumulator (R110). -/
theorem exec_add (n : Nat) (s : State) :
    exec (.add n) s = .next (s.writeAcc ((s.acc.val : Int) + ((memRead s.mem (n : Int)).val : Int))) := rfl

/-- SUB's next state: the exact difference, offered to the accumulator (R111). -/
theorem exec_sub (n : Nat) (s : State) :
    exec (.sub n) s = .next (s.writeAcc ((s.acc.val : Int) - ((memRead s.mem (n : Int)).val : Int))) := rfl

/-- A sum of two values from 0 up can leave the accumulator's range only at its top (R14, R110). -/
theorem State.writeAcc_sum_acc (s : State) (v : Cell) :
    (s.writeAcc ((s.acc.val : Int) + (v.val : Int))).acc.val =
      if s.acc.val + v.val ≤ 999 then s.acc.val + v.val else s.acc.val := by
  have hguard : (0 ≤ (s.acc.val : Int) + v.val ∧ (s.acc.val : Int) + v.val ≤ 999) ↔ s.acc.val + v.val ≤ 999 := by omega
  exact_mod_cast (s.writeAcc_acc _).trans (if_congr hguard rfl rfl)

/-- A difference of two values up to 999 can leave the accumulator's range only at its bottom (R14, R111). -/
theorem State.writeAcc_difference_acc (s : State) (v : Cell) :
    ((s.writeAcc ((s.acc.val : Int) - (v.val : Int))).acc.val : Int) =
      if (s.acc.val : Int) ≥ (v.val : Int) then (s.acc.val : Int) - (v.val : Int) else (s.acc.val : Int) := by
  have hguard : (0 ≤ (s.acc.val : Int) - v.val ∧ (s.acc.val : Int) - v.val ≤ 999) ↔ (s.acc.val : Int) ≥ v.val := by omega
  exact (s.writeAcc_acc _).trans (if_congr hguard rfl rfl)

/-- Settles O22: ADD offers the sum to the accumulator, which takes it up to 999, and writes nothing else. -/
theorem addWritesTheSumWhenInRange : Obligations.AddWritesTheSumWhenInRange := by
  refine ⟨fun n hn => ?_, fun n s => ?_⟩
  · simpa [instrOfFields] using decode_fields (k := 1) (by decide) hn
  · exact ⟨_, exec_add n s, s.writeAcc_sum_acc (memRead s.mem n),
      s.writeAcc_mem _, s.writeAcc_pc _, s.writeAcc_inq _, s.writeAcc_outq _, s.writeAcc_halted _⟩

/-- Settles O23: SUB offers the difference to the accumulator, which takes it from 0 on, and writes nothing else. -/
theorem subWritesTheDifferenceWhenNotNegative : Obligations.SubWritesTheDifferenceWhenNotNegative := by
  refine ⟨fun n hn => ?_, fun n s => ?_⟩
  · simpa [instrOfFields] using decode_fields (k := 2) (by decide) hn
  · exact ⟨_, exec_sub n s, s.writeAcc_difference_acc (memRead s.mem n),
      s.writeAcc_mem _, s.writeAcc_pc _, s.writeAcc_inq _, s.writeAcc_outq _, s.writeAcc_halted _⟩

end Sys2Proof.Machine
end

section
/-! STA and LDA (43_load_store.md, R120 and R121): the writes of a cell's value, which no range check drops. -/

namespace Sys2Proof.Machine

/-- A cell's value is in the range that the guarded writes check (R26). -/
theorem cell_inRange (v : Cell) : 0 ≤ (v.val : Int) ∧ (v.val : Int) ≤ 999 := by omega

/-- A write of a cell's value at a valid address is accepted: that cell holds it, every other cell is kept (R42, R43). -/
theorem memRead_memWrite_cell {m : Memory} {a : Int} (b : Int) (v : Cell) (hm : m.wf = true) (ha : 0 ≤ a ∧ a ≤ 99) :
    memRead (memWrite m a (v.val : Int)) b = if b = a then v else memRead m b :=
  memRead_memWrite hm ha (cell_inRange v)

/-- The accumulator always accepts a cell's value (R14, R26). -/
theorem State.writeAcc_cell (s : State) (v : Cell) : s.writeAcc (v.val : Int) = s.setAcc v :=
  State.writeAcc_in (cell_inRange v)

/-- STA's next state: the accumulator's value, offered to the cell (R120). -/
theorem exec_sta (n : Nat) (s : State) :
    exec (.sta n) s = .next (s.setMem (memWrite s.mem (effectiveAddress n) (s.acc.val : Int))) := rfl

/-- LDA's next state: the accumulator takes the cell, whose value passes the range check (R121 a). -/
theorem exec_lda (n : Nat) (s : State) : exec (.lda n) s = .next (s.setAcc (memRead s.mem (n : Int))) :=
  congrArg Host.Outcome.next (s.writeAcc_cell (memRead s.mem (n : Int)))

/-- An operand of two digits is a valid effective address (R62, R122). -/
theorem effectiveAddress_inRange {n : Nat} (hn : n ≤ 99) : 0 ≤ effectiveAddress n ∧ effectiveAddress n ≤ 99 := by
  unfold effectiveAddress
  omega

/-- Settles O24: both checks of the write pass, so it is a store of the one cell. -/
theorem staStoresTheAccumulator : Obligations.StaStoresTheAccumulator := by
  refine ⟨fun n hn => ?_, fun n s hn hm => ?_⟩
  · simpa [instrOfFields] using decode_fields (k := 3) (by decide) hn
  · have hread (b : Int) := memRead_memWrite_cell b s.acc hm (effectiveAddress_inRange hn)
    exact ⟨_, exec_sta n s, (hread _).trans (if_pos rfl), fun b hb => (hread b).trans (if_neg hb),
      s.setMem_acc _, s.setMem_pc _, s.setMem_inq _, s.setMem_outq _, s.setMem_halted _⟩

/-- Settles O25: the range check of the accumulator passes, so LDA writes it and nothing else. -/
theorem ldaLoadsTheCell : Obligations.LdaLoadsTheCell := by
  refine ⟨fun n hn => ?_, fun n s => ?_⟩
  · simpa [instrOfFields] using decode_fields (k := 4) (by decide) hn
  · exact ⟨_, exec_lda n s, s.setAcc_acc _, s.setAcc_mem _, s.setAcc_pc _, s.setAcc_inq _, s.setAcc_outq _,
      s.setAcc_halted _⟩

end Sys2Proof.Machine
end

section
/-! BRA and BRZ (44_branch.md, R130 and R131): the write of a two-digit target, which no range check drops. -/

namespace Sys2Proof.Machine

/-- The program counter always accepts the target an operand of two digits names (R17, R132). -/
theorem State.writePC_branchTarget (s : State) {n : Nat} (hn : n ≤ 99) :
    s.writePC (branchTarget n) = s.setPc ⟨n, Nat.lt_succ_of_le hn⟩ :=
  State.writePC_in ⟨Int.natCast_nonneg n, Int.ofNat_le.mpr hn⟩

/-- BRA's next state: the program counter is the operand (R130). -/
theorem exec_bra {n : Nat} (hn : n ≤ 99) (s : State) :
    exec (.bra n) s = .next (s.setPc ⟨n, Nat.lt_succ_of_le hn⟩) :=
  congrArg Host.Outcome.next (s.writePC_branchTarget hn)

/-- BRZ's condition, as the value of the accumulator (R131). -/
theorem accIsZero_iff (s : State) : accIsZero s = true ↔ s.acc.val = 0 := decide_eq_true_iff

/-- BRZ is BRA when the accumulator is 0 (R131). -/
theorem exec_brz_of_zero {s : State} (n : Nat) (hs : s.acc.val = 0) : exec (.brz n) s = exec (.bra n) s :=
  congrArg Host.Outcome.next (if_pos ((accIsZero_iff s).mpr hs))

/-- BRZ writes nothing when the accumulator is not 0 (R131). -/
theorem exec_brz_of_ne_zero {s : State} (n : Nat) (hs : s.acc.val ≠ 0) : exec (.brz n) s = .next s :=
  congrArg Host.Outcome.next (if_neg (mt (accIsZero_iff s).mp hs))

/-- Settles O26: the range check of the program counter passes, so BRA writes it and nothing else. -/
theorem braSetsTheProgramCounter : Obligations.BraSetsTheProgramCounter := by
  refine ⟨fun n hn => ?_, fun n s hn => ?_⟩
  · simpa [instrOfFields] using decode_fields (k := 5) (by decide) hn
  · exact ⟨_, exec_bra hn s, congrArg Fin.val (s.setPc_pc _),
      s.setPc_mem _, s.setPc_acc _, s.setPc_inq _, s.setPc_outq _, s.setPc_halted _⟩

/-- Settles O27: on a 0 in the accumulator BRZ does what BRA does (O26), and otherwise the state is kept whole. -/
theorem brzBranchesOnZeroAccumulator : Obligations.BrzBranchesOnZeroAccumulator := by
  refine ⟨fun n hn => ?_, fun n s hn => ?_⟩
  · simpa [instrOfFields] using decode_fields (k := 6) (by decide) hn
  · by_cases hs : s.acc.val = 0
    · rw [exec_brz_of_zero n hs, if_pos hs]
      exact braSetsTheProgramCounter.2 n s hn
    · exact ⟨s, exec_brz_of_ne_zero n hs, (if_neg hs).symm, rfl, rfl, rfl, rfl, rfl⟩

end Sys2Proof.Machine
end

section
/-! INP and OUT (45_io.md, R140 and R141): the front of the input, offered to the accumulator, and the accumulator, sent to
the output. -/

namespace Sys2Proof.Machine

/-- INP's next state: the front is removed first and its value is then offered to the accumulator (R140). -/
theorem exec_inp (x : Nat) (s : State) : exec (.inp x) s = .next (s.dropInput.writeAcc s.inputFront) := rfl

/-- OUT's next state: the accumulator at the back of the output queue (R141). -/
theorem exec_out (x : Nat) (s : State) : exec (.out x) s = .next (s.enqueueOutput s.acc) := rfl

/-- An empty input queue gives 0 (R20). -/
theorem State.inputFront_of_nil {s : State} (h : s.inq = []) : s.inputFront = 0 := by
  rw [s.inputFront_eq, h]; rfl

/-- A non-empty input queue gives its front (R20). -/
theorem State.inputFront_of_cons {s : State} {v : Int} {rest : List Int} (h : s.inq = v :: rest) :
    s.inputFront = v := by
  rw [s.inputFront_eq, h]; rfl

/-- The accumulator after INP: the dequeued value when in range, its value before the instruction when not (R14, R140). -/
theorem State.writeAcc_inputFront_acc (s : State) :
    ((s.dropInput.writeAcc s.inputFront).acc.val : Int) =
      if 0 ≤ s.inputFront ∧ s.inputFront ≤ 999 then s.inputFront else (s.acc.val : Int) := by
  rw [State.writeAcc_acc, State.dropInput_acc]

/-- The input queue after INP: the front is gone whether or not the accumulator took its value (R140). -/
theorem State.writeAcc_inputFront_inq (s : State) : (s.dropInput.writeAcc s.inputFront).inq = s.inq.tail :=
  (s.dropInput.writeAcc_inq _).trans s.dropInput_inq

/-- Settles O28: the empty queue's 0 passes the accumulator's range check, a front passes it or is dropped, and the queue
loses its front in every case. -/
theorem inpTakesTheFrontOfTheInput : Obligations.InpTakesTheFrontOfTheInput := by
  refine ⟨fun n hn => ?_, fun x s => ?_⟩
  · simpa [instrOfFields] using decode_fields (k := 7) (by decide) hn
  · have hacc := s.writeAcc_inputFront_acc
    have hinq := s.writeAcc_inputFront_inq
    refine ⟨_, exec_inp x s, fun hempty => ?_, fun v rest hfront => ?_, by simp⟩
    · rw [State.inputFront_of_nil hempty] at hacc hinq ⊢
      exact ⟨Int.ofNat_eq_zero.mp hacc, hinq.trans (congrArg List.tail hempty)⟩
    · rw [State.inputFront_of_cons hfront] at hacc hinq ⊢
      exact ⟨hacc, hinq.trans (congrArg List.tail hfront)⟩

/-- Settles O29: the append has no condition and writes the output queue alone. -/
theorem outAppendsTheAccumulator : Obligations.OutAppendsTheAccumulator := by
  refine ⟨fun n hn => ?_, fun x s => ?_⟩
  · simpa [instrOfFields] using decode_fields (k := 8) (by decide) hn
  · exact ⟨_, exec_out x s, s.enqueueOutput_outq _, s.enqueueOutput_mem _, s.enqueueOutput_acc _,
      s.enqueueOutput_pc _, s.enqueueOutput_inq _, s.enqueueOutput_halted _⟩

end Sys2Proof.Machine
end

section
/-! No exceptions (60_exceptions.md, R160): the execute phase, an instruction, a step and a run of steps each answer a next
state. -/

namespace Sys2Proof.Machine

/-- The execute phase answers a next state for every opcode (R93, R160). -/
theorem execute_isNext (k : Fin 10) (n : Nat) (s : State) : ∃ t, execute k n s = .next t := by
  rcases execute_cases k n s with ⟨-, he⟩ | ⟨-, he⟩ | ⟨-, he⟩ | ⟨-, he⟩ | ⟨-, he⟩ | ⟨-, he⟩ | ⟨-, he⟩ | ⟨-, he⟩ |
    ⟨-, he⟩ | ⟨-, he⟩ <;> exact ⟨_, he⟩

/-- Every instruction answers a next state, a DAT that is no word too (R160, log entry 7). -/
theorem exec_isNext (i : Instr) (s : State) : ∃ t, exec i s = .next t := by
  obtain ⟨v, rfl⟩ | ⟨k, n, rfl⟩ := instr_dat_or_fields i
  · by_cases hv : v < 1000
    · rw [exec_dat_of_cell ⟨v, hv⟩, decodeCell, exec_instrOfFields]
      exact execute_isNext _ _ s
    · exact ⟨s, exec_dat_notAWord hv s⟩
  · rw [exec_instrOfFields]
    exact execute_isNext k n s

/-- Every step answers a next state, Halted or Running (R160, R95). -/
theorem step_isNext (s : State) : ∃ t, step s = .next t := by
  cases h : s.halted with
  | true => exact ⟨s, step_halted h⟩
  | false =>
    rw [step_running h]
    exact execute_isNext _ _ s.advance

/-- A run of `k + 1` steps is one step and a run of `k` steps from where it leads. -/
theorem reachesIn_succ_of_step {k : Nat} {s t u : State} (h : step s = .next t) :
    ReachesIn (k + 1) s u ↔ ReachesIn k t u := by
  have hcore : core.step s = .next t := h
  simp only [ReachesIn, Host.Core.run, hcore]

/-- No run of steps meets a fault or a refusal, by induction on its length (R160). -/
theorem safeFrom (s : State) : SafeFrom s := by
  intro k
  induction k generalizing s with
  | zero => exact ⟨s, rfl⟩
  | succ k ih =>
    obtain ⟨t, hstep⟩ := step_isNext s
    obtain ⟨u, hu⟩ := ih t
    exact ⟨u, (reachesIn_succ_of_step hstep).mpr hu⟩

/-- Settles O33: no case of the execute phase stops, so neither does an instruction, a step or a run of steps. -/
theorem nothingFaults : Obligations.NothingFaults :=
  ⟨exec_isNext, step_isNext, safeFrom⟩

end Sys2Proof.Machine
end

section
/-! The host's read ports (60_exceptions.md, R172). -/

namespace Sys2Proof.Machine

/-- The number a bounds-checked read gives: the cell's, or 0 outside [0, 99] (R41). -/
theorem memRead_toInt (m : Memory) (a : Int) :
    ((memRead m a).val : Int) = if 0 ≤ a ∧ a ≤ 99 then ((memLookup m a.toNat).val : Int) else 0 := by
  by_cases ha : 0 ≤ a ∧ a ≤ 99
  · rw [memRead_in ha, if_pos ha]
  · rw [memRead_out ha, if_neg ha]; rfl

/-- Settles O55: the memory port is the bounds-checked read, and each other port gives its own field of the state. -/
theorem readPortsShowTheState : Obligations.ReadPortsShowTheState := by
  refine fun s => ⟨fun a => ?_, rfl, rfl, rfl, rfl, rfl⟩
  rw [← memRead_toInt]
  rfl

end Sys2Proof.Machine
end

section
/-! The decoder and the encoder over all words (30_encoding.md, sections 1 to 3): the rows of the opcode map (R64), the
totality of decoding (R67), and the two round trips. -/

namespace Sys2Proof.Machine

/-- An instruction of the opcode map can be encoded exactly when its operand has two digits (R62, R76). -/
theorem instrOfFields_wellFormed (k : Fin 10) (n : Nat) : (instrOfFields k n).wellFormed = true ↔ n ≤ 99 := by
  fin_cases k <;> simp [instrOfFields, Instr.wellFormed]

/-- An instruction that is not DAT is a row of the opcode map with its operand (R64). -/
theorem eq_instrOfFields_of_not_dat {i : Instr} (h : i.isDat = false) : ∃ k n, i = instrOfFields k n := by
  obtain ⟨v, rfl⟩ | hfields := instr_dat_or_fields i
  · cases h
  · exact hfields

/-- Decoding undoes encoding, on each row of the opcode map (R61, R72). -/
theorem decode_encode {i : Instr} (hwf : i.wellFormed = true) (hdat : i.isDat = false) : decode (encode i) = .ok i := by
  obtain ⟨k, n, rfl⟩ := eq_instrOfFields_of_not_dat hdat
  rw [encode_instrOfFields, decode_fields k.isLt ((instrOfFields_wellFormed k n).mp hwf)]

/-- Encoding undoes decoding: the fields of a word make up the word again (R61). -/
theorem encode_decodeCell (w : Cell) : encode (decodeCell w) = w.val :=
  (encode_instrOfFields (opcodeOf w) (operandOf w)).trans (opcode_operand_split w)

/-- Settles O5: both round trips come from the split of a word into its fields, and the word of a DAT is its literal. -/
theorem decodeAndEncodeAgree : Obligations.DecodeAndEncodeAgree :=
  ⟨fun _ => decode_encode, fun w => ⟨encode_decodeCell w, decode_cell w⟩⟩

/-- What a word decodes to can be encoded (R62). -/
theorem decodeCell_wellFormed (w : Cell) : (decodeCell w).wellFormed = true :=
  (instrOfFields_wellFormed _ _).mpr (operandOf_le w)

/-- Settles O4: the value of every cell has its row, and a larger number is no word. -/
theorem everyWordDecodesAndNothingElse : Obligations.EveryWordDecodesAndNothingElse :=
  ⟨fun w => ⟨decodeCell w, decode_cell w, decodeCell_wellFormed w, instrOfFields_not_dat _ _⟩, fun _ => decode_of_ge⟩

/-- A word from 900 on decodes to the unassigned opcode, with its last two digits (R64, R150). -/
theorem decode_nine {n : Nat} (hn : n ≤ 99) : decode (900 + n) = .ok (.unassigned9 n) :=
  decode_fields (k := 9) (by decide) hn

/-- Settles O2: the row of each opcode, as it stands in the obligation of its instruction. -/
theorem wordsOfEachRowDecodeToIt : Obligations.WordsOfEachRowDecodeToIt := by
  intro n hn
  exact ⟨hltHaltsAndWritesNothingElse.1 n hn, addWritesTheSumWhenInRange.1 n hn,
    subWritesTheDifferenceWhenNotNegative.1 n hn, staStoresTheAccumulator.1 n hn, ldaLoadsTheCell.1 n hn,
    braSetsTheProgramCounter.1 n hn, brzBranchesOnZeroAccumulator.1 n hn, inpTakesTheFrontOfTheInput.1 n hn,
    outAppendsTheAccumulator.1 n hn, decode_nine hn⟩

/-- Settles O3: ten closed equations, by evaluating the decoder. -/
theorem sampleWordsDecode : Obligations.SampleWordsDecode := by
  unfold Obligations.SampleWordsDecode
  decide

/-- Settles O12: the text of the unassigned row is DAT and the whole word, and a number that is no word has no text. -/
theorem disassembleOfOtherNumbers : Obligations.DisassembleOfOtherNumbers := by
  refine ⟨fun n hn => ?_, fun v hv => ?_⟩
  · exact (disassemble_fields (k := 9) (by decide) hn).trans (congrArg Except.ok (ofList_instrText (.unassigned9 n)))
  · simp only [disassemble, disassembleWord, decode_of_ge hv]

end Sys2Proof.Machine
end

section
/-! The assembler, line by line (30_encoding.md, section 4): the shape of a line (R77), the instruction its parts name (R72,
R73, R75, R76), and the decimal of a number as an operand. -/

namespace Sys2Proof.Machine

/-! ### The shape of a line -/

/-- A token with which a line may begin (R77 b, log entry 12): one or more characters, none of them white space. -/
def IsToken (name : List Char) : Prop := name ≠ [] ∧ ∀ c ∈ name, c.isWhitespace = false

/-- The test by which the shape of a line finds the end of the token. -/
theorem IsToken.notBlank {name : List Char} (h : IsToken name) : ∀ c ∈ name, (!c.isWhitespace) = true :=
  fun c hc => by rw [h.2 c hc]; rfl

/-- The shape of a token followed by a blank: a space and one or more digits, or none (R77 b, c). -/
theorem lineShape_token_blank {name rest : List Char} {blank : Char} (hname : IsToken name)
    (hblank : blank.isWhitespace = true) :
    lineShape (name ++ blank :: rest) =
      if blank = ' ' ∧ rest ≠ [] ∧ rest.all Char.isDigit = true then some (name, some (readDecimal rest)) else none := by
  have htake : (name ++ blank :: rest).takeWhile (fun c => !c.isWhitespace) = name := by
    rw [List.takeWhile_append_of_pos hname.notBlank, List.takeWhile_cons_of_neg (by simp [hblank]), List.append_nil]
  have hdrop : (name ++ blank :: rest).dropWhile (fun c => !c.isWhitespace) = blank :: rest := by
    rw [List.dropWhile_append_of_pos hname.notBlank, List.dropWhile_cons_of_neg (by simp [hblank])]
  simp only [lineShape, htake, hdrop, if_neg hname.1]

/-- A token, a space and one or more digits have the right shape (R77 b). -/
theorem lineShape_token_digits {name digits : List Char} (hname : IsToken name) (hne : digits ≠ [])
    (hdigits : digits.all Char.isDigit = true) :
    lineShape (name ++ ' ' :: digits) = some (name, some (readDecimal digits)) :=
  (lineShape_token_blank hname (by decide)).trans (if_pos ⟨rfl, hne, hdigits⟩)

/-- A token alone has the right shape, without an operand (R74, R77 b). -/
theorem lineShape_token {name : List Char} (hname : IsToken name) : lineShape name = some (name, none) := by
  simp only [lineShape, List.takeWhile_eq_self_iff.mpr hname.notBlank, List.dropWhile_eq_nil_iff.mpr hname.notBlank,
    if_neg hname.1]

/-- A line that begins with a blank has no mnemonic (R77 e). -/
theorem lineShape_blank {blank : Char} {rest : List Char} (hblank : blank.isWhitespace = true) :
    lineShape (blank :: rest) = none := by
  have htake : (blank :: rest).takeWhile (fun c => !c.isWhitespace) = [] :=
    List.takeWhile_cons_of_neg (by simp [hblank])
  simp only [lineShape, htake, if_true]

/-! ### What a line of a shape gives -/

theorem assembleLine_malformed {line : List Char} (h : lineShape line = none) :
    assembleLine line = .error ⟨.malformedLine, line⟩ := by
  simp only [assembleLine, h]

theorem assembleLine_unknown {line name : List Char} {operand : Option Nat} (hshape : lineShape line = some (name, operand))
    (hnamed : instrNamed name (operand.getD 0) = none) : assembleLine line = .error ⟨.unknownMnemonic, line⟩ := by
  simp only [assembleLine, hshape, hnamed]

theorem assembleLine_named {line name : List Char} {operand : Option Nat} {i : Instr}
    (hshape : lineShape line = some (name, operand)) (hnamed : instrNamed name (operand.getD 0) = some i) :
    assembleLine line = if i.wellFormed then .ok (encode i) else .error ⟨.operandOutOfRange, line⟩ := by
  simp only [assembleLine, hshape, hnamed]

/-! ### The names -/

/-- A mnemonic of R71 names the instruction of its opcode (R72). -/
theorem instrNamed_of_nineMnemonics {p : String × Nat} (hp : p ∈ nineMnemonics) (n : Nat) :
    ∃ hk : p.2 < 10, instrNamed p.1.toList n = some (instrOfFields ⟨p.2, hk⟩ n) := by
  simp only [nineMnemonics, List.mem_cons, List.not_mem_nil, or_false] at hp
  rcases hp with rfl | rfl | rfl | rfl | rfl | rfl | rfl | rfl | rfl <;> exact ⟨by decide, rfl⟩

/-- A name that is neither one of the nine nor DAT names nothing (R75). -/
theorem instrNamed_of_unknown {name : List Char} (hnine : ∀ p ∈ nineMnemonics, name ≠ p.1.toList)
    (hdat : name ≠ "DAT".toList) (n : Nat) : instrNamed name n = none := by
  simp only [nineMnemonics, List.forall_mem_cons] at hnine
  simp_all [instrNamed]

theorem isToken_of_nineMnemonics {p : String × Nat} (hp : p ∈ nineMnemonics) : IsToken p.1.toList := by
  have hall : ∀ q ∈ nineMnemonics, IsToken q.1.toList := by simp [nineMnemonics, IsToken, Char.isWhitespace]
  exact hall p hp

theorem isToken_dat : IsToken "DAT".toList := by
  simp [IsToken, Char.isWhitespace]

/-- A line of one of the nine mnemonics: its word if the operand is at most 99 (R72, R74, R76). -/
theorem assembleLine_nine {p : String × Nat} (hp : p ∈ nineMnemonics) {line : List Char} {operand : Option Nat}
    (hshape : lineShape line = some (p.1.toList, operand)) :
    assembleLine line = if operand.getD 0 ≤ 99 then .ok (p.2 * 100 + operand.getD 0)
      else .error ⟨.operandOutOfRange, line⟩ := by
  obtain ⟨hk, hnamed⟩ := instrNamed_of_nineMnemonics hp (operand.getD 0)
  rw [assembleLine_named hshape hnamed, encode_instrOfFields]
  exact if_congr (instrOfFields_wellFormed _ _) rfl rfl

/-- A line of DAT: the literal if it is at most 999 (R73, R76). -/
theorem assembleLine_dat {line : List Char} {operand : Option Nat} (hshape : lineShape line = some ("DAT".toList, operand)) :
    assembleLine line = if operand.getD 0 ≤ 999 then .ok (operand.getD 0) else .error ⟨.operandOutOfRange, line⟩ := by
  rw [assembleLine_named hshape (i := .dat (operand.getD 0)) rfl]
  exact if_congr decide_eq_true_iff rfl rfl

/-! ### Operands of digits and of numbers -/

/-- One of the nine mnemonics with an operand of digits (R72, R76). -/
theorem assembleLine_nine_digits {p : String × Nat} (hp : p ∈ nineMnemonics) {digits : List Char} (hne : digits ≠ [])
    (hdigits : digits.all Char.isDigit = true) :
    assembleLine (p.1.toList ++ ' ' :: digits) =
      if readDecimal digits ≤ 99 then .ok (p.2 * 100 + readDecimal digits)
      else .error ⟨.operandOutOfRange, p.1.toList ++ ' ' :: digits⟩ :=
  assembleLine_nine hp (lineShape_token_digits (isToken_of_nineMnemonics hp) hne hdigits)

/-- DAT with a literal of digits (R73, R76). -/
theorem assembleLine_dat_digits {digits : List Char} (hne : digits ≠ []) (hdigits : digits.all Char.isDigit = true) :
    assembleLine ("DAT".toList ++ ' ' :: digits) =
      if readDecimal digits ≤ 999 then .ok (readDecimal digits)
      else .error ⟨.operandOutOfRange, "DAT".toList ++ ' ' :: digits⟩ :=
  assembleLine_dat (lineShape_token_digits isToken_dat hne hdigits)

/-- Reading the decimal of a number gives the number (R77 c, R79). -/
theorem readDecimal_toDigits (n : Nat) : readDecimal (Nat.toDigits 10 n) = n := by
  have h := Nat.ofDigitChars_ten_toDigits (n := n)
  rw [Nat.ofDigitChars_eq_foldl] at h
  simpa only [readDecimal, Nat.mul_comm] using h

theorem toDigits_all_isDigit (n : Nat) : (Nat.toDigits 10 n).all Char.isDigit = true :=
  List.all_eq_true.mpr fun _ hc => Nat.isDigit_of_mem_toDigits (by decide) (by decide) hc

/-- The characters of a mnemonic, a space and the decimal of a number. -/
theorem toList_text (name : String) (n : Nat) :
    (name ++ " " ++ toString n).toList = name.toList ++ ' ' :: Nat.toDigits 10 n := by
  simp

/-- One of the nine mnemonics with a number (R72, R76). -/
theorem assemble_nine {p : String × Nat} (hp : p ∈ nineMnemonics) (n : Nat) :
    assemble (p.1 ++ " " ++ toString n) =
      if n ≤ 99 then .ok (p.2 * 100 + n) else .error ⟨.operandOutOfRange, (p.1 ++ " " ++ toString n).toList⟩ := by
  have h := assembleLine_nine_digits hp Nat.toDigits_ne_nil (toDigits_all_isDigit n)
  rwa [readDecimal_toDigits, ← toList_text] at h

/-- DAT with a number (R73, R76). -/
theorem assemble_dat (n : Nat) :
    assemble ("DAT " ++ toString n) =
      if n ≤ 999 then .ok n else .error ⟨.operandOutOfRange, ("DAT " ++ toString n).toList⟩ := by
  have h := assembleLine_dat_digits Nat.toDigits_ne_nil (toDigits_all_isDigit n)
  rwa [readDecimal_toDigits, ← toList_text] at h

/-! ### The obligations of the assembler -/

/-- Settles O6: the accepting branches of the range checks. -/
theorem assembleGivesTheWord : Obligations.AssembleGivesTheWord := by
  refine ⟨fun digits hne hdigits => ⟨fun p hp hle => ?_, fun hle => ?_⟩, fun p hp n hn => ?_, fun n hn => ?_⟩
  · exact (assembleLine_nine_digits hp hne hdigits).trans (if_pos hle)
  · exact (assembleLine_dat_digits hne hdigits).trans (if_pos hle)
  · exact (assemble_nine hp n).trans (if_pos hn)
  · exact (assemble_dat n).trans (if_pos hn)

/-- Settles O9: the refusing branches of the range checks. -/
theorem operandOutOfRangeFails : Obligations.OperandOutOfRangeFails := by
  refine ⟨fun digits hne hdigits => ⟨fun p hp hgt => ?_, fun hgt => ?_⟩, fun p hp n hn => ?_, fun n hn => ?_⟩
  · exact (assembleLine_nine_digits hp hne hdigits).trans (if_neg (Nat.not_le.mpr hgt))
  · exact (assembleLine_dat_digits hne hdigits).trans (if_neg (Nat.not_le.mpr hgt))
  · exact (assemble_nine hp n).trans (if_neg (Nat.not_le.mpr hn))
  · exact (assemble_dat n).trans (if_neg (Nat.not_le.mpr hn))

/-- Settles O7: a mnemonic alone has the right shape, and its missing operand is 0. -/
theorem omittedOperandIsZero : Obligations.OmittedOperandIsZero :=
  ⟨fun _ hp => assembleLine_nine hp (lineShape_token (isToken_of_nineMnemonics hp)),
    assembleLine_dat (lineShape_token isToken_dat)⟩

/-- Settles O8: the ten tests of the name all fail; FOO 1 is such a line. -/
theorem unknownMnemonicFails : Obligations.UnknownMnemonicFails := by
  have hunknown (line name : List Char) (operand : Option Nat) (hshape : lineShape line = some (name, operand))
      (hnine : ∀ p ∈ nineMnemonics, name ≠ p.1.toList) (hdat : name ≠ "DAT".toList) :
      assembleLine line = .error ⟨.unknownMnemonic, line⟩ :=
    assembleLine_unknown hshape (instrNamed_of_unknown hnine hdat _)
  exact ⟨hunknown, hunknown _ "FOO".toList (some 1) (by decide) (by decide) (by decide)⟩

/-- A token and a blank after it are malformed unless the blank is the space and digits alone follow (R77 b, c). -/
theorem assembleLine_token_blank {name rest : List Char} {blank : Char} (hname : IsToken name)
    (hblank : blank.isWhitespace = true) (h : ¬ (blank = ' ' ∧ rest ≠ [] ∧ rest.all Char.isDigit = true)) :
    assembleLine (name ++ blank :: rest) = .error ⟨.malformedLine, name ++ blank :: rest⟩ :=
  assembleLine_malformed ((lineShape_token_blank hname hblank).trans (if_neg h))

/-- Settles O10: no mnemonic before a leading blank, and after a mnemonic a blank that fails one of the three conditions. -/
theorem malformedLinesFail : Obligations.MalformedLinesFail := by
  refine ⟨fun blank rest hblank => assembleLine_malformed (lineShape_blank hblank), fun name hne hnoblank => ?_,
    assembleLine_malformed rfl⟩
  refine ⟨assembleLine_token_blank ⟨hne, hnoblank⟩ (by decide) (by simp), fun digits c rest _ hc => ?_,
    fun blank rest hblank hspace => assembleLine_token_blank ⟨hne, hnoblank⟩ hblank fun h => hspace h.1⟩
  exact assembleLine_token_blank ⟨hne, hnoblank⟩ (by decide) (by simp [hc])

end Sys2Proof.Machine
end

section
/-! The round trip of the assembler and the disassembler (30_encoding.md, R81), and a program with a failing line. -/

namespace Sys2Proof.Machine

/-- Every opcode below 9 has a mnemonic (R64, R71). -/
theorem exists_nineMnemonics {k : Nat} (hk : k ≤ 8) : ∃ p ∈ nineMnemonics, p.2 = k := by
  interval_cases k <;> decide

/-- The text of every word assembles to the word: as its mnemonic below 900, as DAT from there on (R80, R81). -/
theorem assemble_disassemble {w : Nat} (hw : w ≤ 999) : ∃ text, disassemble w = .ok text ∧ assemble text = .ok w := by
  by_cases hnine : w < 900
  · obtain ⟨p, hp, hopcode⟩ := exists_nineMnemonics (k := w / 100) (by omega)
    have hsplit : p.2 * 100 + w % 100 = w := by omega
    have hoperand : w % 100 ≤ 99 := by omega
    refine ⟨p.1 ++ " " ++ toString (w % 100), ?_, ?_⟩
    · simpa only [hsplit] using disassembleGivesMnemonicAndOperand p hp _ hoperand
    · simpa only [hsplit] using assembleGivesTheWord.2.1 p hp _ hoperand
  · refine ⟨"DAT " ++ toString w, ?_, (assemble_dat w).trans (if_pos hw)⟩
    have htext := disassembleOfOtherNumbers.1 (w - 900) (by omega)
    rwa [Nat.add_sub_cancel' (by omega)] at htext

/-- Settles O13: the word of a line prints as the line (O6 and O11), and the text of a word assembles to the word. -/
theorem assembleDisassembleRoundTrip : Obligations.AssembleDisassembleRoundTrip := by
  refine ⟨fun p hp n hn => ?_, fun w => assemble_disassemble, by decide, by decide⟩
  exact ⟨_, (assemble_nine hp n).trans (if_pos hn), disassembleGivesMnemonicAndOperand p hp n hn⟩

/-- Settles O57, by induction on the lines before the failing one: each gives its word, and the error comes through. -/
theorem programWithAFailingLineFails : Obligations.ProgramWithAFailingLineFails := by
  intro before after line e hbefore hfail
  induction before with
  | nil => simp only [List.nil_append, assembleProgram, hfail]
  | cons first rest ih =>
    obtain ⟨⟨w, hw⟩, hrest⟩ := List.forall_mem_cons.mp hbefore
    simp only [List.cons_append, assembleProgram, hw, ih hrest]

end Sys2Proof.Machine
end

section
/-! Memories in canonical form (10_state.md, section 2): what they read as determines them. -/

namespace Sys2Proof.Machine

@[simp] theorem memLookup_cons_self (a : Nat) (v : Cell) (rest : Memory) : memLookup ((a, v) :: rest) a = v := if_pos rfl

theorem memLookup_cons_ne {a b : Nat} (h : a ≠ b) (v : Cell) (rest : Memory) :
    memLookup ((a, v) :: rest) b = memLookup rest b := if_neg h

/-- Above the last address of R11 nothing is listed. -/
theorem memLookup_above {lo a : Nat} {m : Memory} (hm : Memory.wfFrom lo m = true) (ha : 99 < a) : memLookup m a = 0 := by
  induction m generalizing lo with
  | nil => rfl
  | cons cell rest ih =>
    obtain ⟨-, h99, -, hrest⟩ := Memory.wfFrom_cons.mp hm
    rw [memLookup_cons_ne (by omega), ih hrest]

/-- A listed memory reads as 0 strictly below its first listed address. -/
theorem memLookup_cons_below {lo a b : Nat} {v : Cell} {rest : Memory} (hm : Memory.wfFrom lo ((a, v) :: rest) = true)
    (hb : b < a) : memLookup ((a, v) :: rest) b = 0 := by
  obtain ⟨-, hv⟩ := Memory.wfFrom_cons.mp hm
  exact memLookup_below (Memory.wfFrom_cons.mpr ⟨Nat.le_refl a, hv⟩) hb

/-- No memory lists an address below the first one of another memory that reads the same there: the listed value is not 0,
and the other memory reads as 0. -/
theorem firstAddress_le_of_reads_eq {lo a b : Nat} {v w : Cell} {rest rest' : Memory}
    (hm : Memory.wfFrom lo ((a, v) :: rest) = true) (hm' : Memory.wfFrom lo ((b, w) :: rest') = true)
    (h : memLookup ((a, v) :: rest) a = memLookup ((b, w) :: rest') a) : b ≤ a := by
  obtain ⟨-, -, hv, -⟩ := Memory.wfFrom_cons.mp hm
  by_contra hlt
  rw [memLookup_cons_self, memLookup_cons_below hm' (by omega)] at h
  exact hv h

/-- Two lists in canonical form with the same value at every address are equal: they have the same first pair, and their rests
read the same. -/
theorem eq_of_memLookup_eq {lo : Nat} {m m' : Memory} (hm : Memory.wfFrom lo m = true) (hm' : Memory.wfFrom lo m' = true)
    (h : ∀ a, memLookup m a = memLookup m' a) : m = m' := by
  induction m generalizing lo m' with
  | nil =>
    cases m' with
    | nil => rfl
    | cons cell' rest' =>
      obtain ⟨-, -, hv, -⟩ := Memory.wfFrom_cons.mp hm'
      exact absurd ((h cell'.1).trans (memLookup_cons_self _ _ _)).symm hv
  | cons cell rest ih =>
    obtain ⟨a, v⟩ := cell
    obtain ⟨-, -, hv, hrest⟩ := Memory.wfFrom_cons.mp hm
    cases m' with
    | nil => exact absurd ((memLookup_cons_self a v rest).symm.trans (h a)) hv
    | cons cell' rest' =>
      obtain ⟨b, w⟩ := cell'
      obtain ⟨-, -, -, hrest'⟩ := Memory.wfFrom_cons.mp hm'
      obtain rfl : a = b := Nat.le_antisymm (firstAddress_le_of_reads_eq hm' hm (h b).symm)
        (firstAddress_le_of_reads_eq hm hm' (h a))
      obtain rfl : v = w := by simpa using h a
      refine congrArg _ (ih hrest hrest' fun c => ?_)
      by_cases hc : a = c
      · rw [← hc, memLookup_below hrest (Nat.lt_succ_self a), memLookup_below hrest' (Nat.lt_succ_self a)]
      · simpa only [memLookup_cons_ne hc] using h c

/-- Settles O17: the bounds-checked reads give every address in range, and above it both memories read as 0. -/
theorem canonicalMemoriesAreEqualWhenTheyReadEqual : Obligations.CanonicalMemoriesAreEqualWhenTheyReadEqual := by
  intro m m' hm hm' hread
  refine eq_of_memLookup_eq hm hm' fun a => ?_
  by_cases ha : a ≤ 99
  · have hrange : 0 ≤ (a : Int) ∧ (a : Int) ≤ 99 := by omega
    simpa only [memRead_in hrange, Int.toNat_natCast] using hread a
  · rw [memLookup_above hm (by omega), memLookup_above hm' (by omega)]

/-- Settles O19: the reset memory lists nothing. -/
theorem resetMemoryIsCanonicalAndZero : Obligations.ResetMemoryIsCanonicalAndZero :=
  ⟨rfl, memRead_nil⟩

end Sys2Proof.Machine
end

section
/-! What one step does to each element of the state (40_cycle.md, R95), in terms of the fetched word's opcode and operand:
said once here, and every claim on a step is read off it. -/

namespace Sys2Proof.Machine

/-- What the execute phase of an opcode and an operand of two digits may do to each element of a state (R93). -/
structure Effect (opcode operand : Nat) (s t : State) : Prop where
  mem : t.mem = if opcode = 3 then memWrite s.mem (effectiveAddress operand) (s.acc.val : Int) else s.mem
  acc : t.acc ≠ s.acc → opcode = 1 ∨ opcode = 2 ∨ opcode = 4 ∨ opcode = 7
  pc : t.pc.val = if opcode = 5 ∨ (opcode = 6 ∧ s.acc.val = 0) then operand else s.pc.val
  inq : t.inq = if opcode = 7 then s.inq.tail else s.inq
  outq : t.outq = if opcode = 8 then s.outq ++ [s.acc] else s.outq
  halted : t.halted = (decide (opcode = 0) || s.halted)

/-- The effect of BRZ, whose condition is the one test the execute phase makes of the state (R131). -/
theorem effect_brz {n : Nat} (hn : n ≤ 99) (s : State) :
    Effect 6 n s (if accIsZero s then s.writePC (branchTarget n) else s) := by
  by_cases hz : s.acc.val = 0
  · rw [if_pos ((accIsZero_iff s).mpr hz), s.writePC_branchTarget hn]
    constructor <;> simp [hz]
  · rw [if_neg (mt (accIsZero_iff s).mp hz)]
    constructor <;> simp [hz]

/-- The ten cases of the execute phase have their effect (R93, R100 to R150). -/
theorem effect_of_execute {k : Fin 10} {n : Nat} {s t : State} (hn : n ≤ 99) (h : execute k n s = .next t) :
    Effect k.val n s t := by
  have hbra := s.writePC_branchTarget hn
  rcases execute_cases k n s with ⟨rfl, he⟩ | ⟨rfl, he⟩ | ⟨rfl, he⟩ | ⟨rfl, he⟩ | ⟨rfl, he⟩ | ⟨rfl, he⟩ | ⟨rfl, he⟩ |
    ⟨rfl, he⟩ | ⟨rfl, he⟩ | ⟨rfl, he⟩ <;> obtain rfl := Host.Outcome.next.inj (he.symm.trans h)
  -- BRZ is the one row whose next state is a case distinction.
  pick_goal 7
  · exact effect_brz hn s
  all_goals constructor <;> simp [hbra]

/-- The effect of a Running step is that of the fetched word's fields, after the fetch's advance (R95). -/
theorem effect_of_step {s t : State} (hs : s.halted = false) (h : step s = .next t) :
    Effect (s.fetchWord.val / 100) (s.fetchWord.val % 100) s.advance t := by
  rw [step_running hs] at h
  exact effect_of_execute (operandOf_le _) h

/-- A step from a Halted state leads to that state (R95). -/
theorem eq_of_step_halted {s t : State} (hs : s.halted = true) (h : step s = .next t) : t = s :=
  (Host.Outcome.next.inj ((step_halted hs).symm.trans h)).symm

/-- An operand of a word is an address (R62). -/
theorem fetchOperand_le (s : State) : s.fetchWord.val % 100 ≤ 99 := operandOf_le s.fetchWord

/-! ### One element at a time -/

/-- Memory after a Running step: a STA's bounds-checked write, or nothing (R12). -/
theorem step_mem {s t : State} (hs : s.halted = false) (h : step s = .next t) :
    t.mem = if s.fetchWord.val / 100 = 3 then memWrite s.mem (effectiveAddress (s.fetchWord.val % 100)) (s.acc.val : Int)
      else s.mem := by
  simpa only [State.advance_mem, State.advance_acc] using (effect_of_step hs h).mem

/-- A Running step that changes the accumulator has the opcode of ADD, SUB, LDA or INP (R14). -/
theorem step_acc {s t : State} (hs : s.halted = false) (h : step s = .next t) (hacc : t.acc ≠ s.acc) :
    s.fetchWord.val / 100 = 1 ∨ s.fetchWord.val / 100 = 2 ∨ s.fetchWord.val / 100 = 4 ∨ s.fetchWord.val / 100 = 7 :=
  (effect_of_step hs h).acc (by rwa [State.advance_acc])

/-- The program counter after a Running step: the target of a taken branch, or the fetch's advance (R94). -/
theorem step_pc {s t : State} (hs : s.halted = false) (h : step s = .next t) :
    t.pc.val = if s.fetchWord.val / 100 = 5 ∨ (s.fetchWord.val / 100 = 6 ∧ s.acc.val = 0) then s.fetchWord.val % 100
      else if s.pc.val ≤ 98 then s.pc.val + 1 else 99 := by
  simpa only [State.advance_acc, State.advance_pc] using (effect_of_step hs h).pc

theorem step_inq {s t : State} (hs : s.halted = false) (h : step s = .next t) :
    t.inq = if s.fetchWord.val / 100 = 7 then s.inq.tail else s.inq := by
  simpa only [State.advance_inq] using (effect_of_step hs h).inq

theorem step_outq {s t : State} (hs : s.halted = false) (h : step s = .next t) :
    t.outq = if s.fetchWord.val / 100 = 8 then s.outq ++ [s.acc] else s.outq := by
  simpa only [State.advance_outq, State.advance_acc] using (effect_of_step hs h).outq

/-- The halt state after a Running step: only opcode 0 sets it (R90). -/
theorem step_halted_eq {s t : State} (hs : s.halted = false) (h : step s = .next t) :
    t.halted = decide (s.fetchWord.val / 100 = 0) := by
  simpa only [State.advance_halted, hs, Bool.or_false] using (effect_of_step hs h).halted

/-- Settles O40: the program counter's part of the effect. -/
theorem programCounterAfterAStep : Obligations.ProgramCounterAfterAStep :=
  fun _ _ => step_pc

/-- Settles O43: the queues' parts of the effect. -/
theorem queuesChangeOnlyByInpAndOut : Obligations.QueuesChangeOnlyByInpAndOut :=
  fun _ _ hs h => ⟨step_inq hs h, step_outq hs h⟩

/-- Settles O42: a Halted step changes nothing, and a Running one changes the accumulator in four of its cases. -/
theorem onlyAddSubLdaInpChangeTheAccumulator : Obligations.OnlyAddSubLdaInpChangeTheAccumulator := by
  intro s t h hacc
  cases hs : s.halted with
  | true => exact absurd (congrArg State.acc (eq_of_step_halted hs h)) hacc
  | false => exact ⟨rfl, step_acc hs h hacc⟩

/-! ### Memory along a step -/

/-- A step keeps the canonical form: the one write it can make is bounds-checked (R26). -/
theorem step_mem_wf {s t : State} (hm : s.mem.wf = true) (h : step s = .next t) : t.mem.wf = true := by
  cases hs : s.halted with
  | true => rwa [eq_of_step_halted hs h]
  | false =>
    rw [step_mem hs h]
    split
    · exact memWrite_wf hm
    · exact hm

/-- Settles O18: the memory's part of the effect. -/
theorem stepKeepsMemoryCanonical : Obligations.StepKeepsMemoryCanonical :=
  fun _ _ => step_mem_wf

/-- Each address after a Running step: a STA's operand reads as the accumulator, any other as before (R12, R120). -/
theorem memRead_step {s t : State} (hs : s.halted = false) (hm : s.mem.wf = true) (h : step s = .next t) (a : Int) :
    memRead t.mem a = if s.fetchWord.val / 100 = 3 ∧ a = ((s.fetchWord.val % 100 : Nat) : Int) then s.acc
      else memRead s.mem a := by
  rw [step_mem hs h]
  by_cases hsta : s.fetchWord.val / 100 = 3
  · rw [if_pos hsta, memRead_memWrite_cell a s.acc hm (effectiveAddress_inRange (fetchOperand_le s))]
    exact if_congr (and_iff_right hsta).symm rfl rfl
  · rw [if_neg hsta, if_neg fun h => hsta h.1]

/-- Settles O41: of the host's operations a load is one of the two cases, and a step changes the cell its STA names. -/
theorem onlyStaAndLoadChangeMemory : Obligations.OnlyStaAndLoadChangeMemory := by
  refine ⟨memRead_nil, fun s t op a hm h hchange => ?_⟩
  cases op with
  | load program input => exact .inl ⟨program, input, rfl⟩
  | step =>
    cases hs : s.halted with
    | true => exact absurd (by rw [eq_of_step_halted hs h]) hchange
    | false =>
      rw [memRead_step hs hm h a] at hchange ⊢
      split at hchange
      · next hsta => exact .inr ⟨rfl, rfl, hsta.1, hsta.2, if_pos hsta⟩
      · exact absurd rfl hchange

/-- Settles O46: the next fetch is a read of the memory the STA left. -/
theorem storeIsSeenByTheNextFetch : Obligations.StoreIsSeenByTheNextFetch := by
  intro s t hs hm hsta h
  refine (memRead_step hs hm h t.pc.val).trans (if_congr ?_ rfl rfl)
  exact (and_iff_right hsta).trans Int.ofNat_inj

/-! ### The output queue is not read -/

theorem State.setOutq_writeAcc (s : State) (q : List Cell) (v : Int) :
    (s.setOutq q).writeAcc v = (s.writeAcc v).setOutq q := by
  unfold State.writeAcc; split <;> rfl

theorem State.setOutq_writePC (s : State) (q : List Cell) (v : Int) :
    (s.setOutq q).writePC v = (s.writePC v).setOutq q := by
  unfold State.writePC; split <;> rfl

theorem State.setOutq_advance (s : State) (q : List Cell) : (s.setOutq q).advance = s.advance.setOutq q :=
  s.setOutq_writePC q _

theorem State.setOutq_dropInput (s : State) (q : List Cell) : (s.setOutq q).dropInput = s.dropInput.setOutq q := by
  cases h : s.inq with
  | nil => simp only [State.dropInput, State.setOutq_inq, h]
  | cons v rest =>
    simp only [State.dropInput, State.setOutq_inq, h]
    rfl

/-- With another output queue the execute phase answers the same state but for that queue, to which OUT has appended the
accumulator (R21, R22). -/
theorem execute_setOutq {k : Fin 10} {n : Nat} {s t : State} (h : execute k n s = .next t) (q : List Cell) :
    execute k n (s.setOutq q) = .next (t.setOutq (if k.val = 8 then q ++ [s.acc] else q)) := by
  rcases execute_cases k n s with ⟨rfl, he⟩ | ⟨rfl, he⟩ | ⟨rfl, he⟩ | ⟨rfl, he⟩ | ⟨rfl, he⟩ | ⟨rfl, he⟩ | ⟨rfl, he⟩ |
    ⟨rfl, he⟩ | ⟨rfl, he⟩ | ⟨rfl, he⟩ <;> obtain rfl := Host.Outcome.next.inj (he.symm.trans h)
  · rfl
  · exact congrArg Host.Outcome.next (s.setOutq_writeAcc q _)
  · exact congrArg Host.Outcome.next (s.setOutq_writeAcc q _)
  · rfl
  · exact congrArg Host.Outcome.next (s.setOutq_writeAcc q _)
  · exact congrArg Host.Outcome.next (s.setOutq_writePC q _)
  · refine congrArg Host.Outcome.next (Eq.trans ?_ (apply_ite (State.setOutq · q) _ _ _).symm)
    exact congrArg (ite _ · _) (s.setOutq_writePC q _)
  · refine congrArg Host.Outcome.next (Eq.trans ?_ (s.dropInput.setOutq_writeAcc q s.inputFront))
    exact congrArg (State.writeAcc · s.inputFront) (s.setOutq_dropInput q)
  · rfl
  · rfl

/-- A Running step with another output queue, in the same way. -/
theorem step_setOutq {s t : State} (hs : s.halted = false) (h : step s = .next t) (q : List Cell) :
    step (s.setOutq q) = .next (t.setOutq (if s.fetchWord.val / 100 = 8 then q ++ [s.acc] else q)) := by
  rw [step_running hs] at h
  rw [step_running (s := s.setOutq q) hs, s.setOutq_advance q]
  exact (execute_setOutq h q).trans (by rw [State.advance_acc]; rfl)

/-- Settles O45: the values appended are the accumulator in a step of OUT and none in any other. -/
theorem outputQueueIsNeverRead : Obligations.OutputQueueIsNeverRead := by
  intro s t q h
  cases hs : s.halted with
  | true =>
    obtain rfl := eq_of_step_halted hs h
    exact ⟨t.setOutq q, [], step_halted hs, by simp⟩
  | false =>
    have hout := step_outq hs h
    refine ⟨_, if s.fetchWord.val / 100 = 8 then [s.acc] else [], step_setOutq hs h q, ?_, ?_, rfl, rfl, rfl, rfl, rfl⟩
    · rw [hout]; split <;> simp
    · rw [State.setOutq_outq]; split <;> simp

end Sys2Proof.Machine
end

section
/-! Laws of single instructions and of pairs (42_arith.md, R111 and R113; 46_reserved.md, R150; log entry 7). -/

namespace Sys2Proof.Machine

/-- Settles O34: the accepted sum minus the cell is the old accumulator, which SUB's range check accepts. -/
theorem subUndoesAnAcceptedAdd : Obligations.SubUndoesAnAcceptedAdd := by
  intro n s hsum
  have hrange : 0 ≤ (s.acc.val : Int) + (memRead s.mem n).val ∧ (s.acc.val : Int) + (memRead s.mem n).val ≤ 999 := by
    omega
  refine ⟨_, exec_add n s, (exec_sub n _).trans (congrArg Host.Outcome.next ?_)⟩
  rw [State.writeAcc_in hrange, State.setAcc_mem, State.setAcc_acc]
  have hback : ((s.acc.val : Int) + (memRead s.mem n).val).toNat - ((memRead s.mem n).val : Int) = s.acc.val := by omega
  rw [hback, State.writeAcc_cell]
  rfl

/-- Settles O35: the cell holds the accumulator after the STA (O24), and SUB takes it from itself (O23). -/
theorem subOfOwnStoredCopyGivesZero : Obligations.SubOfOwnStoredCopyGivesZero := by
  intro n s hn hm
  obtain ⟨t, hsta, hcell, -, hacc, -⟩ := staStoresTheAccumulator.2 n s hn hm
  obtain ⟨u, hsub, hdifference, -⟩ := subWritesTheDifferenceWhenNotNegative.2 n t
  refine ⟨t, u, hsta, hsub, ?_⟩
  have hcopy : memRead t.mem (n : Int) = t.acc := hcell.trans hacc.symm
  rw [hcopy, if_pos (le_refl _), Int.sub_self] at hdifference
  exact Int.ofNat_eq_zero.mp hdifference

/-- Settles O31: a DAT of a word is the execution of what the word decodes to, which answers a next state. -/
theorem datExecutesAsTheWordItSpells : Obligations.DatExecutesAsTheWordItSpells := by
  intro w s
  obtain ⟨t, ht⟩ := exec_isNext (decodeCell w) s
  exact ⟨t, (exec_dat_of_cell w s).trans ht, ht⟩

/-- Settles O32: none of the four meanings uses the operand. -/
theorem ignoredOperandDigitsDoNotMatter : Obligations.IgnoredOperandDigitsDoNotMatter :=
  fun _ _ _ => ⟨rfl, rfl, rfl, rfl⟩

/-- Opcode 9 answers the same state (R150). -/
theorem exec_unassigned9 (x : Nat) (s : State) : exec (.unassigned9 x) s = .next s := rfl

/-- HLT's next state (R100). -/
theorem exec_hlt (x : Nat) (s : State) : exec (.hlt x) s = .next s.halt := rfl

/-! ### The decoded instruction of a step -/

/-- A Running step executes what the fetched word decodes to (R95). -/
theorem step_of_decode {s : State} {i : Instr} (hs : s.halted = false) (h : decode s.fetchWord.val = .ok i) :
    step s = exec i s.advance := by
  obtain rfl : decodeCell s.fetchWord = i := Except.ok.inj ((decode_cell s.fetchWord).symm.trans h)
  rw [step_running hs, decodeCell, exec_instrOfFields]

/-- Settles O37: the fetch gives the word at the program counter and the advanced state. -/
theorem stepRunsTheDecodedInstruction : Obligations.StepRunsTheDecodedInstruction :=
  fun _ _ => step_of_decode

/-- A word with a given hundreds digit decodes to that row (R61, R64). -/
theorem decode_of_opcode {v k : Nat} (hk : k < 10) (h : v / 100 = k) :
    decode v = .ok (instrOfFields ⟨k, hk⟩ (v % 100)) := by
  have hsplit : k * 100 + v % 100 = v := by omega
  simpa only [hsplit] using decode_fields hk (n := v % 100) (by omega)

/-- Settles O30: a word from 900 on decodes to opcode 9, so its step is the advance alone. -/
theorem opcodeNineIsANoOperation : Obligations.OpcodeNineIsANoOperation := by
  refine ⟨fun n => decode_nine, exec_unassigned9, fun s hs hnine => ?_⟩
  have hopcode : s.fetchWord.val / 100 = 9 := by
    have hword : 900 ≤ s.fetchWord.val := hnine
    omega
  have hstep := (step_of_decode hs (decode_of_opcode (by decide) hopcode)).trans (exec_unassigned9 _ s.advance)
  exact ⟨s.advance, hstep, s.advance_pc, s.advance_mem, s.advance_acc, s.advance_inq, s.advance_outq,
    s.advance_halted.trans hs⟩

end Sys2Proof.Machine
end

section
/-! Runs (40_cycle.md, section 3): `run` and the bounded executor in terms of steps, and what holds after any number of
steps. -/

namespace Sys2Proof.Machine

/-! ### Numbers of steps -/

theorem reachesIn_zero {s t : State} : ReachesIn 0 s t ↔ t = s :=
  ⟨fun h => (Host.Outcome.next.inj h).symm, fun h => congrArg Host.Outcome.next h.symm⟩

/-- A number of steps leads to one state only (R98). -/
theorem ReachesIn.unique {k : Nat} {s t u : State} (ht : ReachesIn k s t) (hu : ReachesIn k s u) : t = u :=
  Host.Outcome.next.inj (ht.symm.trans hu)

/-- What every step keeps holds after any number of steps, by induction on the number. -/
theorem ReachesIn.keeps {P : State → Prop} (hkeep : ∀ s t, P s → step s = .next t → P t) {k : Nat} {s t : State}
    (hs : P s) (h : ReachesIn k s t) : P t := by
  induction k generalizing s with
  | zero => rwa [reachesIn_zero.mp h]
  | succ k ih =>
    obtain ⟨u, hu⟩ := step_isNext s
    exact ih (hkeep s u hs hu) ((reachesIn_succ_of_step hu).mp h)

/-- What every step keeps, if it excludes the Halted state, makes the machine run for ever (R191). -/
theorem hangsFrom_of_keeps {P : State → Prop} (hkeep : ∀ s t, P s → step s = .next t → P t)
    (hrunning : ∀ s, P s → s.halted = false) {s : State} (hs : P s) : HangsFrom s := by
  intro k
  obtain ⟨t, ht⟩ := safeFrom s k
  exact ⟨t, ht, hrunning t (ht.keeps hkeep hs)⟩

/-- A state that a step leads back to is the only one any number of steps leads to. -/
theorem ReachesIn.eq_of_fixed {k : Nat} {s t : State} (hfixed : step s = .next s) (h : ReachesIn k s t) : t = s := by
  refine h.keeps (P := (· = s)) (fun u v hu hv => ?_) rfl
  rw [hu] at hv
  exact (Host.Outcome.next.inj (hfixed.symm.trans hv)).symm

/-! ### run -/

/-- From a Halted state `run` returns at once (R96). -/
theorem runsTo_of_halted {s t : State} (hs : s.halted = true) : RunsTo s t ↔ t = s := by
  constructor
  · intro h
    cases h with
    | halted => rfl
    | step hrunning => rw [hs] at hrunning; cases hrunning
  · rintro rfl
    exact .halted hs

/-- From a Running state `run` goes on from the state a step leads to (R96). -/
theorem runsTo_of_step {s s' t : State} (hs : s.halted = false) (h : step s = .next s') : RunsTo s t ↔ RunsTo s' t := by
  constructor
  · intro hrun
    cases hrun with
    | halted hhalted => rw [hs] at hhalted; cases hhalted
    | step _ hstep hrest => rwa [Host.Outcome.next.inj (h.symm.trans hstep)]
  · exact .step hs h

/-- A run ends in a Halted state only (R97). -/
theorem RunsTo.final_halted {s t : State} (h : RunsTo s t) : t.halted = true := by
  induction h with
  | halted hhalted => exact hhalted
  | step _ _ _ ih => exact ih

/-- A run ends in one state only (R98). -/
theorem RunsTo.unique {s t u : State} (ht : RunsTo s t) (hu : RunsTo s u) : t = u := by
  induction ht with
  | halted hs => exact ((runsTo_of_halted hs).mp hu).symm
  | step hs hstep _ ih => exact ih ((runsTo_of_step hs hstep).mp hu)

/-- Settles O38: a Halted state is a fixed point of a step and the end of a run. -/
theorem haltedStepAndRunDoNothing : Obligations.HaltedStepAndRunDoNothing :=
  fun _ hs => ⟨step_halted hs, fun _ => runsTo_of_halted hs⟩

/-- Settles O48, by induction on the run. -/
theorem runEndsHaltedAndInOneState : Obligations.RunEndsHaltedAndInOneState :=
  fun _ _ _ ht hu => ⟨ht.final_halted, ht.unique hu⟩

/-! ### run as a number of steps -/

/-- The number of a run's steps, by induction on the run. -/
theorem RunsTo.reaches {s t : State} (h : RunsTo s t) : ∃ k, ReachesIn k s t := by
  induction h with
  | halted => exact ⟨0, reachesIn_zero.mpr rfl⟩
  | step _ hstep _ ih =>
    obtain ⟨k, hk⟩ := ih
    exact ⟨k + 1, (reachesIn_succ_of_step hstep).mpr hk⟩

/-- Steps that lead to a Halted state make a run, which returns at the first Halted state among them. -/
theorem ReachesIn.runsTo {k : Nat} {s t : State} (h : ReachesIn k s t) (ht : t.halted = true) : RunsTo s t := by
  induction k generalizing s with
  | zero =>
    obtain rfl := reachesIn_zero.mp h
    exact .halted ht
  | succ k ih =>
    cases hs : s.halted with
    | true => exact (runsTo_of_halted hs).mpr (h.eq_of_fixed (step_halted hs))
    | false =>
      obtain ⟨u, hu⟩ := step_isNext s
      exact .step hs hu (ih ((reachesIn_succ_of_step hu).mp h))

/-- `run` returns with a state exactly when some number of steps leads to it and it is Halted (R96). -/
theorem runsTo_iff_reaches {s t : State} : RunsTo s t ↔ ∃ k, ReachesIn k s t ∧ t.halted = true := by
  constructor
  · intro h
    obtain ⟨k, hk⟩ := h.reaches
    exact ⟨k, hk, h.final_halted⟩
  · rintro ⟨k, hk, ht⟩
    exact hk.runsTo ht

/-! ### The bounded executor -/

theorem runFor_of_halted {s : State} (fuel : Nat) (hs : s.halted = true) : runFor fuel s = some s := by
  cases fuel <;> exact if_pos hs

theorem runFor_zero_of_running {s : State} (hs : s.halted = false) : runFor 0 s = none := by
  simp [runFor, hs]

theorem runFor_succ_of_step {s s' : State} (fuel : Nat) (hs : s.halted = false) (h : step s = .next s') :
    runFor (fuel + 1) s = runFor fuel s' := by
  simp [runFor, hs, h]

/-- The bounded executor finds the end of every run, with as much fuel as the run has steps (R96). -/
theorem RunsTo.exists_fuel {s t : State} (h : RunsTo s t) : ∃ fuel, runFor fuel s = some t := by
  induction h with
  | halted hs => exact ⟨0, runFor_of_halted 0 hs⟩
  | step hs hstep _ ih =>
    obtain ⟨fuel, hfuel⟩ := ih
    exact ⟨fuel + 1, (runFor_succ_of_step fuel hs hstep).trans hfuel⟩

/-- What the bounded executor finds is the end of the run, by induction on the fuel. -/
theorem runsTo_of_runFor {fuel : Nat} {s t : State} (h : runFor fuel s = some t) : RunsTo s t := by
  induction fuel generalizing s with
  | zero =>
    cases hs : s.halted with
    | true => exact (runsTo_of_halted hs).mpr (Option.some.inj ((runFor_of_halted 0 hs).symm.trans h)).symm
    | false => rw [runFor_zero_of_running hs] at h; cases h
  | succ fuel ih =>
    cases hs : s.halted with
    | true => exact (runsTo_of_halted hs).mpr (Option.some.inj ((runFor_of_halted _ hs).symm.trans h)).symm
    | false =>
      obtain ⟨u, hu⟩ := step_isNext s
      exact .step hs hu (ih ((runFor_succ_of_step fuel hs hu).symm.trans h))

/-- Settles O47: the three descriptions of the end of a run agree. -/
theorem runIsIterationOfStep : Obligations.RunIsIterationOfStep :=
  fun _ _ => ⟨runsTo_iff_reaches, RunsTo.exists_fuel, fun ⟨_, h⟩ => runsTo_of_runFor h⟩

/-- Settles O49: the states along a run of steps are each Running or the end of the run. -/
theorem hangIsTheAbsenceOfAFinalState : Obligations.HangIsTheAbsenceOfAFinalState := by
  intro s
  constructor
  · rintro hhang ⟨t, hrun⟩
    obtain ⟨k, hk⟩ := hrun.reaches
    obtain ⟨u, hu, hrunning⟩ := hhang k
    rw [hu.unique hk, hrun.final_halted] at hrunning
    cases hrunning
  · intro hnone k
    obtain ⟨t, ht⟩ := safeFrom s k
    exact ⟨t, ht, Bool.eq_false_iff.mpr fun hhalted => hnone ⟨t, ht.runsTo hhalted⟩⟩

/-! ### Along every run -/

/-- Settles O20: the image writes of the load are bounds-checked, and every step keeps the form (O18). -/
theorem loadedMachinesKeepMemoryCanonical : Obligations.LoadedMachinesKeepMemoryCanonical :=
  fun program _ _ _ h => h.keeps (P := fun s => s.mem.wf = true) (fun _ _ => step_mem_wf) (installImage_wf program 0 [] rfl)

/-- One step appends at most one value to the output queue and removes at most the front of the input queue. -/
theorem step_queues {s t : State} (h : step s = .next t) :
    s.outq <+: t.outq ∧ t.outq.length ≤ s.outq.length + 1 ∧ t.inq <:+ s.inq := by
  cases hs : s.halted with
  | true =>
    rw [eq_of_step_halted hs h]
    simp
  | false =>
    rw [step_outq hs h, step_inq hs h]
    refine ⟨?_, ?_, ?_⟩ <;> split <;> simp [List.tail_suffix]

/-- The queues after any number of steps, by induction on the number. -/
theorem ReachesIn.queues {k : Nat} {s t : State} (h : ReachesIn k s t) :
    s.outq <+: t.outq ∧ t.outq.length ≤ s.outq.length + k ∧ t.inq <:+ s.inq := by
  induction k generalizing s with
  | zero =>
    obtain rfl := reachesIn_zero.mp h
    simp
  | succ k ih =>
    obtain ⟨u, hu⟩ := step_isNext s
    obtain ⟨hgrows, hlength, hshrinks⟩ := step_queues hu
    obtain ⟨hgrows', hlength', hshrinks'⟩ := ih ((reachesIn_succ_of_step hu).mp h)
    exact ⟨hgrows.trans hgrows', by omega, hshrinks'.trans hshrinks⟩

/-- Settles O44: each step appends and consumes in one way, and a Halted state is a fixed point. -/
theorem runsOnlyAppendOutputAndConsumeInput : Obligations.RunsOnlyAppendOutputAndConsumeInput := by
  intro k s t h
  obtain ⟨hgrows, hlength, hshrinks⟩ := h.queues
  exact ⟨hgrows, hlength, hshrinks, fun hs => h.eq_of_fixed (step_halted hs)⟩

/-! ### Infinite loops -/

/-- A BRA to its own address leads back to the same state: it undoes the fetch's advance (R130 b). -/
theorem step_bra_to_itself {s : State} (hs : s.halted = false) (hword : s.fetchWord.val = 500 + s.pc.val) :
    step s = .next s := by
  have hpc : s.pc.val ≤ 99 := Fin.is_le s.pc
  have hdecode : decode s.fetchWord.val = .ok (.bra s.pc.val) := by rw [hword]; exact braSetsTheProgramCounter.1 _ hpc
  rw [step_of_decode hs hdecode, exec_bra hpc]
  refine congrArg Host.Outcome.next (State.eq_of_fields ?_ ?_ rfl ?_ ?_ ?_)
  · exact s.advance_mem
  · exact s.advance_acc
  · exact s.advance_inq
  · exact s.advance_outq
  · exact s.advance_halted

/-- Settles O50: the state is Running and a fixed point of a step. -/
theorem braToItselfHangs : Obligations.BraToItselfHangs := by
  intro s hs hword
  have hfixed := step_bra_to_itself hs hword
  refine ⟨fun k => ?_, fun k t h => h.eq_of_fixed hfixed⟩
  obtain ⟨t, ht⟩ := safeFrom s k
  exact ⟨t, ht, by rw [ht.eq_of_fixed hfixed, hs]⟩

/-- A word that can be executed for ever at address 99: no HLT, no BRA, and not the STA over that very cell (R187, log
entry 15). Of a BRZ, `AtEnd` says that its branch is not taken. -/
def StaysAtEnd (w : Cell) : Prop := w.val / 100 ≠ 0 ∧ w.val / 100 ≠ 5 ∧ w.val ≠ 399

/-- A Running machine at address 99 over the word, whose branch is not taken if it is a BRZ. -/
structure AtEnd (w : Cell) (s : State) : Prop where
  running : s.halted = false
  canonical : s.mem.wf = true
  pc : s.pc.val = 99
  cell : memRead s.mem 99 = w
  notTaken : w.val / 100 = 6 → s.acc.val ≠ 0

theorem AtEnd.fetchWord {w : Cell} {s : State} (h : AtEnd w s) : s.fetchWord = w := by
  rw [← h.cell, State.fetchWord, h.pc]
  rfl

/-- A step over such a word leaves the machine where it was: no halt, no branch, and a STA writes another cell (R187). -/
theorem AtEnd.step {w : Cell} (hw : StaysAtEnd w) (s t : State) (h : AtEnd w s) (hstep : step s = .next t) : AtEnd w t := by
  obtain ⟨hhlt, hbra, hself⟩ := hw
  have hword := h.fetchWord
  have hnobranch : ¬ (w.val / 100 = 5 ∨ w.val / 100 = 6 ∧ s.acc.val = 0) := by
    rintro (hfive | ⟨hsix, hzero⟩)
    · exact hbra hfive
    · exact h.notTaken hsix hzero
  constructor
  case running => rw [step_halted_eq h.running hstep, hword, decide_eq_false hhlt]
  case canonical => exact step_mem_wf h.canonical hstep
  case pc => rw [step_pc h.running hstep, hword, if_neg hnobranch, h.pc]; rfl
  case cell => rw [memRead_step h.running h.canonical hstep, hword, if_neg (by omega), h.cell]
  case notTaken =>
    intro hsix
    have hacc : t.acc = s.acc := by
      by_contra hchange
      have := step_acc h.running hstep hchange
      rw [hword] at this
      omega
    rw [hacc]
    exact h.notTaken hsix

/-- Settles O51: being at address 99 over such a word is kept by every step, and it excludes the Halted state. -/
theorem fallingOffTheEndNeverHalts : Obligations.FallingOffTheEndNeverHalts := by
  intro s hs hm hpc hhlt hbra hbrz hself
  have hend : AtEnd (memRead s.mem 99) s := ⟨hs, hm, hpc, rfl, hbrz⟩
  have hkeep := AtEnd.step (w := memRead s.mem 99) ⟨hhlt, hbra, hself⟩
  refine ⟨hangsFrom_of_keeps hkeep (fun _ => AtEnd.running) hend, fun k t h => ?_⟩
  have hlater := h.keeps hkeep hend
  exact ⟨hlater.pc, hlater.cell⟩

end Sys2Proof.Machine
end

section
/-! Reset, load and the host (70_reset_and_hazards.md, section 1; 60_exceptions.md, section 6). -/

namespace Sys2Proof.Machine

/-- Settles O39: load writes Running; opcode 0 alone sets the halt state, on the fetched state; a Halted step keeps it. -/
theorem onlyHltHaltsAndOnlyLoadResumes : Obligations.OnlyHltHaltsAndOnlyLoadResumes := by
  refine ⟨fun _ program input => ⟨load program input, rfl, load_halted program input⟩, fun s t hs h => ⟨?_, ?_⟩,
    haltedStepAndRunDoNothing, fun s t op hs h ht => ?_⟩
  · intro hzero
    have hhalt := (step_of_decode hs (decode_of_opcode (by decide) hzero)).trans (exec_hlt _ s.advance)
    exact Host.Outcome.next.inj (h.symm.trans hhalt)
  · intro hnonzero
    exact (step_halted_eq hs h).trans (decide_eq_false hnonzero)
  · cases op with
    | load program input => exact ⟨program, input, rfl⟩
    | step =>
      rw [eq_of_step_halted hs h, hs] at ht
      cases ht

/-- Settles O52: the cells are those of the image (R181), and the other fields are written by the load as such. -/
theorem loadResetsEverything : Obligations.LoadResetsEverything := by
  intro machine program input
  refine ⟨load program input, rfl, fun a => ?_, rfl, rfl, load_inq _ _, load_outq _ _, load_halted _ _⟩
  by_cases ha : 0 ≤ a ∧ a ≤ 99
  · obtain ⟨n, rfl⟩ := Int.eq_ofNat_of_zero_le ha.1
    rw [memRead_load program input (by omega), Int.toNat_natCast]
    exact if_congr (by omega) rfl rfl
  · rw [memRead_out ha, if_neg fun h => ha ⟨h.1, h.2.1⟩]
    rfl

/-- Settles O53: a load of nothing installs nothing, and the 0 at address 0 is a HLT. -/
theorem bareResetIsTheEmptyLoad : Obligations.BareResetIsTheEmptyLoad := by
  refine ⟨rfl, State.reset.advance.halt, ?_, rfl, rfl, rfl, rfl, rfl, rfl⟩
  exact (step_of_decode (i := .hlt 0) rfl rfl).trans (exec_hlt 0 _)

/-- Settles O54: each host operation but load looks for a state first. -/
theorem beforeTheFirstLoadOnlyLoadWorks : Obligations.BeforeTheFirstLoadOnlyLoadWorks := by
  refine ⟨rfl, fun _ => rfl, ?_⟩
  rintro t ⟨s, hnone, -⟩
  cases hnone

/-- The host's decoder answers words of a cell only (R60, log entry 1). -/
theorem decodeTableWord_eq_some {nbits w : Nat} {i : Instr} (h : decodeTableWord nbits w = some i) :
    w < 1000 ∧ decode w = .ok i := by
  by_cases hw : w < 1000
  · simp only [decodeTableWord, decode_of_lt hw] at h
    exact ⟨hw, (decode_of_lt hw).trans (congrArg Except.ok (Option.some.inj h))⟩
  · simp [decodeTableWord, decode_of_ge (Nat.le_of_not_lt hw)] at h

/-- The memory after a word is placed: the word at the program counter, every other cell kept (log entry 4). -/
theorem memRead_withFetchWord {s : State} {w : Nat} (nbits : Nat) (hm : s.mem.wf = true) (hw : w < 1000) (a : Int) :
    memRead (s.withFetchWord nbits w).mem a = if a = (s.pc.val : Int) then ⟨w, hw⟩ else memRead s.mem a :=
  memRead_memWrite_cell a ⟨w, hw⟩ hm (by omega)

/-- Settles O56: the placed word is the fetched one, and the placing writes one cell and the halt state. -/
theorem placedWordIsRunNext : Obligations.PlacedWordIsRunNext := by
  intro s nbits w i hm h
  obtain ⟨hw, hdecode⟩ := decodeTableWord_eq_some h
  have hread := memRead_withFetchWord nbits hm hw
  have hword : (s.withFetchWord nbits w).fetchWord.val = w := congrArg Fin.val ((hread _).trans (if_pos rfl))
  refine ⟨step_of_decode rfl (by rw [hword, hdecode]), hword, rfl,
    fun a ha => (hread a).trans (if_neg ha), rfl, rfl, rfl, rfl⟩

end Sys2Proof.Machine
end
